-- ==== Sys2Proof/Word.lean ====
section
/-! DEFINITION. The bit vectors of the machine (00_scope.md R5, R7). -/

namespace Sys2Proof

/-- A byte of the program buffer: an opcode byte or a `next8` operand (`OPW = 8`, R5). -/
abbrev Byte := BitVec 8

/-- A `next16` operand (`IMMW = 16`, R5). -/
abbrev Half := BitVec 16

/-- A general register or the remainder register: a 32-bit pattern (`XLEN = REMW = 32`, R5, R7). -/
abbrev Word := BitVec 32

/-- A program counter of `PCW` bits, `PCW = 32`: the default of R6 (log entry 2, DESIGN CHOICE). -/
abbrev PcWord := BitVec 32

end Sys2Proof
end

