-- ==== Sys2Proof/Config.lean ====
section
/-! DEFINITION. What an implementation fixes (00_scope.md R5, R6) and the free values (60_exceptions.md R137). -/

namespace Sys2Proof

/-- The symbolic opcodes: a closed set of `NOPC = 8`, the explicit illegal one included (R5, R58). -/
inductive Opcode where
  | load | add | sub | mul | div | hlt | jmp | igl
deriving DecidableEq, Repr

/-- `OPMAP`: a total function from a byte to a symbolic opcode, configuration and not state (R6, R58). -/
abbrev OpMap := Byte → Opcode

/-- `NREG`, the number of general registers (R5). -/
abbrev Config.nreg : Nat := 32

/-- `MAXLEN`, the greatest admitted length of the program buffer: the default of R6 (log entry 3, DESIGN CHOICE). -/
def Config.maxLen : Nat := 2 ^ 31

/-- `INIT_PROG`, the buffer a reset leaves when none is supplied: the default of R6, empty (log entry 4, DESIGN CHOICE). -/
def Config.initProg : List Byte := []

/-- The byte that a cell list need not list: buffers are held without their zero bytes
(log entry 7, DESIGN CHOICE; a matter of representation only, every byte of a buffer is the host's). -/
def Config.unlistedByte : Byte := 0

/-- Everything a machine may let its unspecified fields depend on when a fault is entered: the state
before the faulting instruction and how many faults came before (`draw`, the model's own count). -/
structure FaultSite where
  draw : Nat
  x : Vector Word 32
  rem : Word
  pc : PcWord
  len : Nat
  cells : List Host.Cell
deriving DecidableEq, Repr

/-- FREE VALUE: the contents of `x[0..31]` after a fault, unspecified by R137 (log entry 5). -/
opaque Config.faultRegs : FaultSite → Vector Word 32

/-- FREE VALUE: the contents of `rem` after a fault, unspecified by R137 (log entry 5). -/
opaque Config.faultRem : FaultSite → Word

/-- FREE VALUE: the contents of `pc` after a fault, unspecified by R137 (log entry 5). -/
opaque Config.faultPc : FaultSite → PcWord

end Sys2Proof
end

