-- ==== Sys2Proof/Syntax.lean ====
section
/-! DEFINITION. The instructions (40_engine_step.md R72, spec/opcode_table.json), one constructor per symbolic opcode. -/

namespace Sys2Proof

/-- An instruction with its operands in stream order (30_encoding.md R47, R65). A register operand is
the WHOLE operand byte: 32 to 255 name no register, and an instruction that holds one is still that
instruction, whose execution faults (R57, R61). `igl` keeps the illegal byte, as the notation
`IGL 0xNN` does (R65); nothing it does depends on it (44_halt_illegal.md R102). -/
inductive Instr where
  | load (d : Byte) (imm : Half)
  | add (a b d : Byte)
  | sub (a b d : Byte)
  | mul (a b d : Byte)
  | div (a b d : Byte)
  | hlt
  | jmp (s : Byte)
  | igl (b : Byte)
deriving DecidableEq, Repr

end Sys2Proof
end

