-- ==== Sys2Proof/Decode.lean ====
section
/-! DEFINITION. The `instruction_decoder` (30_encoding.md R46 to R64, R110, R111) and the encoder of the same formats.
The decoder works on the buffer's bytes from `pc` on: advancing the counter is dropping the bytes consumed. -/

namespace Sys2Proof

/-- The default `OPMAP` (R59): seven named opcodes, every other byte illegal (log entry 1, DESIGN CHOICE). -/
def defaultOpmap : OpMap := fun b =>
  match b.toNat with
  | 0 => .load
  | 1 => .add
  | 2 => .sub
  | 3 => .mul
  | 4 => .div
  | 5 => .hlt
  | 6 => .jmp
  | _ => .igl

/-- The opcode byte of each named opcode under the default `OPMAP` (R59); for the illegal opcode its
first byte, which the encoder never asks for. -/
def defaultByte : Opcode → Byte
  | .load => 0
  | .add => 1
  | .sub => 2
  | .mul => 3
  | .div => 4
  | .hlt => 5
  | .jmp => 6
  | .igl => 7

/-- The length of an instruction, told from its symbolic opcode alone (R62). -/
def opcodeLength : Opcode → Nat
  | .load => 4
  | .add => 4
  | .sub => 4
  | .mul => 4
  | .div => 4
  | .jmp => 2
  | .hlt => 1
  | .igl => 1

/-- The symbolic opcode of an instruction. -/
def opcodeOf : Instr → Opcode
  | .load _ _ => .load
  | .add _ _ _ => .add
  | .sub _ _ _ => .sub
  | .mul _ _ _ => .mul
  | .div _ _ _ => .div
  | .hlt => .hlt
  | .jmp _ => .jmp
  | .igl _ => .igl

/-- The register-index operands of an instruction, in stream order (R53, R54, R56). -/
def indexOperands : Instr → List Byte
  | .load d _ => [d]
  | .add a b d => [a, b, d]
  | .sub a b d => [a, b, d]
  | .mul a b d => [a, b, d]
  | .div a b d => [a, b, d]
  | .hlt => []
  | .jmp s => [s]
  | .igl _ => []

/-- Does a register-index operand name a register? The whole byte counts, it is not masked (R57). -/
def indexInRange (b : Byte) : Bool := decide (b.toNat < Config.nreg)

/-- Two consecutive bytes as one big-endian 16-bit value (20_memory.md R34). -/
def bigEndian (hi lo : Byte) : Half := hi ++ lo

/-- The more significant byte of a 16-bit operand: the one stored first (R34). -/
def highByte (v : Half) : Byte := v.extractLsb' 8 8

/-- The less significant byte of a 16-bit operand (R34). -/
def lowByte (v : Half) : Byte := v.extractLsb' 0 8

/-- Why bytes are no whole instruction. A byte sequence is refused only when it is cut short; the name
is that of the condition the engine meets first, in the order of 40_engine_step.md R74. -/
inductive DecodeError where
  /-- an operand byte (or the opcode byte) is missing and every index operand before it is in range -/
  | fetchOutOfBounds
  /-- an index operand before the missing byte is out of range -/
  | registerIndexOutOfRange
deriving DecidableEq, Repr

/-- `decodeOpcode()` (R48): the symbolic opcode of the byte at the counter (with the byte itself, which
only `IGL 0xNN` keeps) and the bytes after it; `none` is the `oob` output of R111. -/
def decodeOpcode (om : OpMap) : List Byte → Option ((Opcode × Byte) × List Byte)
  | [] => none
  | b :: rest => some ((om b, b), rest)

/-- `next8()` (R49). -/
def next8 : List Byte → Option (Byte × List Byte)
  | [] => none
  | b :: rest => some (b, rest)

/-- `next16()` (R50): out of bounds when either byte is missing (R33). -/
def next16 : List Byte → Option (Half × List Byte)
  | hi :: lo :: rest => some (bigEndian hi lo, rest)
  | _ => none

/-- The condition met first when the next operand byte is missing and `seen` are the index operands
already fetched: each is checked right after its own fetch (R57, R74). -/
def cutShort (seen : List Byte) : DecodeError :=
  if seen.all indexInRange then .fetchOutOfBounds else .registerIndexOutOfRange

/-- The operands of format RI (R54). -/
def decodeRI (mk : Byte → Half → Instr) (bs : List Byte) : Except DecodeError (Instr × List Byte) :=
  match next8 bs with
  | none => .error (cutShort [])
  | some (d, bs₁) =>
    match next16 bs₁ with
    | none => .error (cutShort [d])
    | some (imm, bs₂) => .ok (mk d imm, bs₂)

/-- The operand of format R (R53). -/
def decodeR (mk : Byte → Instr) (bs : List Byte) : Except DecodeError (Instr × List Byte) :=
  match next8 bs with
  | none => .error (cutShort [])
  | some (s, bs₁) => .ok (mk s, bs₁)

/-- The operands of format RRR: first source, second source, destination (R56, R155). -/
def decodeRRR (mk : Byte → Byte → Byte → Instr) (bs : List Byte) :
    Except DecodeError (Instr × List Byte) :=
  match next8 bs with
  | none => .error (cutShort [])
  | some (a, bs₁) =>
    match next8 bs₁ with
    | none => .error (cutShort [a])
    | some (b, bs₂) =>
      match next8 bs₂ with
      | none => .error (cutShort [a, b])
      | some (d, bs₃) => .ok (mk a b d, bs₃)

/-- The operands of each symbolic opcode (the operand column of R72); `byte` is the opcode byte. -/
def decodeOperands (op : Opcode) (byte : Byte) (bs : List Byte) :
    Except DecodeError (Instr × List Byte) :=
  match op with
  | .load => decodeRI .load bs
  | .add => decodeRRR .add bs
  | .sub => decodeRRR .sub bs
  | .mul => decodeRRR .mul bs
  | .div => decodeRRR .div bs
  | .hlt => .ok (.hlt, bs)
  | .jmp => decodeR .jmp bs
  | .igl => .ok (.igl byte, bs)

/-- Decoding under any `OPMAP`: the instruction and the bytes that follow it. -/
def decodeWith (om : OpMap) (bs : List Byte) : Except DecodeError (Instr × List Byte) :=
  match decodeOpcode om bs with
  | none => .error .fetchOutOfBounds
  | some ((op, byte), rest) => decodeOperands op byte rest

/-- Decoding under the default `OPMAP`. -/
def decode (bs : List Byte) : Except DecodeError (Instr × List Byte) := decodeWith defaultOpmap bs

/-- Encoding with the opcode bytes `ob` (the `OPMAP^-1` of R81, R84, R89 to R92, R101; an illegal
instruction is its own byte, R102), formats of R47. -/
def encodeWith (ob : Opcode → Byte) : Instr → List Byte
  | .load d imm => [ob .load, d, highByte imm, lowByte imm]
  | .add a b d => [ob .add, a, b, d]
  | .sub a b d => [ob .sub, a, b, d]
  | .mul a b d => [ob .mul, a, b, d]
  | .div a b d => [ob .div, a, b, d]
  | .hlt => [ob .hlt]
  | .jmp s => [ob .jmp, s]
  | .igl b => [b]

/-- Encoding with the default opcode bytes (R59). -/
def encode (i : Instr) : List Byte := encodeWith defaultByte i

/-- The bytes of an instruction whose bits are `w`, bit 0 the least significant bit of the first byte;
bits at and above `nbits` are zero, up to the longest instruction (four bytes, R47). -/
def tableBytes (nbits w : Nat) : List Byte :=
  let v := w % 2 ^ nbits
  [BitVec.ofNat 8 v, BitVec.ofNat 8 (v / 256), BitVec.ofNat 8 (v / 65536),
    BitVec.ofNat 8 (v / 16777216)]

/-- The instruction the decoder reads from the bits of a row of spec/opcode_table.json. -/
def decodeTableWord (nbits w : Nat) : Option Instr :=
  match decode (tableBytes nbits w) with
  | .ok (i, _) => some i
  | .error _ => none

end Sys2Proof
end

