-- ==== Sys2Proof/Machine/Memory.lean ====
section
/-! DEFINITION. The program buffer (10_state.md R22, 20_memory.md R31 to R38): the machine's one memory. -/

namespace Sys2Proof.Machine

/-- The program buffer: its length `LEN` and its bytes as (offset, byte) cells. Canonical form
(`Memory.wf`): offsets strictly rising and below `len`, no cell equal to `Config.unlistedByte`
(log entry 7). -/
structure Memory where
  len : Nat
  cells : List Host.Cell
deriving DecidableEq, Repr

/-- The empty buffer, `LEN = 0` (R22). -/
def Memory.empty : Memory := ⟨0, []⟩

/-- The byte a cell list gives an offset. -/
def cellAt : List Host.Cell → Nat → Byte
  | [], _ => Config.unlistedByte
  | (k, b) :: rest, a => if k = a then b else cellAt rest a

/-- `MemRead(a, 1)` (00_scope.md R9): the byte at offset `a`, none at or past `LEN` (R33, R38). -/
def Memory.read (m : Memory) (a : Nat) : Option Byte :=
  if a < m.len then some (cellAt m.cells a) else none

/-- Up to `n` consecutive bytes from offset `a`, as many as the buffer holds (R155, R157). -/
def Memory.window (m : Memory) (a : Nat) : Nat → List Byte
  | 0 => []
  | n + 1 =>
    match m.read a with
    | none => []
    | some b => b :: m.window (a + 1) n

/-- A cell list with the byte at one offset replaced, canonical form kept. -/
def putCell : List Host.Cell → Nat → Byte → List Host.Cell
  | [], a, v => if v = Config.unlistedByte then [] else [(a, v)]
  | (k, b) :: rest, a, v =>
    if k < a then (k, b) :: putCell rest a v
    else if k = a then (if v = Config.unlistedByte then rest else (a, v) :: rest)
    else (if v = Config.unlistedByte then (k, b) :: rest else (a, v) :: (k, b) :: rest)

/-- The buffer with the byte at one offset replaced, made longer where the offset is past its end.
No rule of the CORE calls it (R32): it serves placing an instruction from outside (log entry 8). -/
def Memory.put (m : Memory) (a : Nat) (v : Byte) : Memory :=
  ⟨max m.len (a + 1), putCell m.cells a v⟩

/-- The buffer with consecutive bytes replaced from an offset on; from outside only, as `Memory.put`. -/
def Memory.putBytes (m : Memory) (a : Nat) : List Byte → Memory
  | [] => m
  | v :: vs => (m.put a v).putBytes (a + 1) vs

/-- The canonical cells of a byte sequence that starts at an offset. -/
def cellsFrom (k : Nat) : List Byte → List Host.Cell
  | [] => []
  | v :: vs => if v = Config.unlistedByte then cellsFrom (k + 1) vs else (k, v) :: cellsFrom (k + 1) vs

/-- The buffer that holds a byte sequence: `prog <- bytes`, `LEN <- length(bytes)` (R118). -/
def Memory.ofBytes (bs : List Byte) : Memory := ⟨bs.length, cellsFrom 0 bs⟩

/-- Cells at strictly rising offsets from `lo` up to below `hi`, none of them an unlisted byte. -/
def cellsWf (lo hi : Nat) : List Host.Cell → Bool
  | [] => true
  | (k, b) :: rest =>
    decide (lo ≤ k) && decide (k < hi) && decide (b ≠ Config.unlistedByte) && cellsWf (k + 1) hi rest

/-- The buffer is in canonical form, so that equal buffers are equal data. -/
def Memory.wf (m : Memory) : Bool := cellsWf 0 m.len m.cells

end Sys2Proof.Machine
end

