-- ==== Sys2Proof/Machine/State.lean ====
section
/-! DEFINITION. The architectural state (10_state.md R13 to R30) and the reasons a step can stop. -/

namespace Sys2Proof.Machine

/-- The causes of a stop (60_exceptions.md R127). -/
inductive StopCause where
  | endOfProgram | hltInstruction | illegalOpcode
deriving DecidableEq, Repr

/-- The causes of a fault (R128). -/
inductive FaultCause where
  | fetchOutOfBounds | registerIndexOutOfRange | divisionByZero | divisionOverflow
deriving DecidableEq, Repr

/-- The run status (10_state.md R21). -/
inductive Status where
  | running
  | halted (c : StopCause)
  | faulted (c : FaultCause)
deriving DecidableEq, Repr

/-- The diagnostic events: two distinct tags without payload (R23). -/
inductive DiagEvent where
  | hlt | illegal
deriving DecidableEq, Repr

/-- The state of one CORE instance: the tuple of 10_state.md, the output trace `diag` (R23) and the
model's own count of fault entries. -/
structure State where
  /-- `x[0]` to `x[31]` (R13, R14) -/
  x : Vector Word 32
  /-- the remainder register (R16, R17) -/
  rem : Word
  /-- the program counter, a byte offset (R18, R19) -/
  pc : PcWord
  /-- the run status latch (R21) -/
  status : Status
  /-- the program buffer `prog` and its length `LEN` (R22) -/
  prog : Memory
  /-- the diagnostic events emitted so far, oldest first (R23) -/
  diag : List DiagEvent
  /-- THE MODEL'S OWN (log entry 6): how many faults were entered, so that the unspecified contents
  after each (R137) are fresh free values -/
  draws : Nat
deriving DecidableEq, Repr

/-- The machine right after reset (R29, 70_reset_and_hazards.md R146); `draws` is the model's
(log entry 6, DESIGN CHOICE). -/
def State.reset : State where
  x := Vector.replicate 32 0
  rem := 0
  pc := 0
  status := .running
  prog := Memory.ofBytes Config.initProg
  diag := []
  draws := 0

/-- The reasons of the host's second outcome. THERE IS NONE: a fault of the spec is an entry into
`Faulted(c)` that the spec describes (R137), so it is a next state (log entries 5 and 11); no step,
no meaning and no host operation can answer `.fault`. Safe. -/
inductive Fault where
deriving DecidableEq, Repr

/-- The reasons of the host's third outcome. -/
inductive Refusal where
  /-- raised by an arm of `exec` whose instruction has no meaning; no arm raises it. Safe. -/
  | notModelled (mnemonic : String)
  /-- raised by the host operations that load a buffer (`hostLoadProgram`, `hostReset`) when it is
  longer than `MAXLEN` (20_memory.md R45, R118; log entry 12); no step raises it. Safe. -/
  | programTooLong
deriving DecidableEq, Repr

end Sys2Proof.Machine
end

