-- ==== Sys2Proof/Machine/Ops.lean ====
section
/-! DEFINITION. The operations of `register_file` and `program_counter` (45_blocks_and_host_interface.md R107, R109),
the fetch, and the ends of a step: stop entry (60_exceptions.md R138), fault entry (R137) and what leaves `Halted` (R140). -/

namespace Sys2Proof.Machine

/-- What a step, a meaning or a host operation answers. -/
abbrev Out := Host.Outcome State Fault Refusal

/-- `rf_read(i)` (R107). -/
def State.rfRead (s : State) (i : Fin 32) : Word := s.x.get i

/-- `rf_write(i, v)` (R107); also the host's `rf_host_load`. No register is special (R14). -/
def State.rfWrite (s : State) (i : Fin 32) (v : Word) : State := { s with x := s.x.set i v }

/-- `rf_write_rem(v)` (R107). -/
def State.rfWriteRem (s : State) (v : Word) : State := { s with rem := v }

/-- `rf_read_rem()` (R107): for the host only, no instruction reads `rem` (R17). -/
def State.rfReadRem (s : State) : Word := s.rem

/-- `pc_advance(n)` (R109): the bytes of an instruction consumed. It wraps in no state with
`pc < LEN <= MAXLEN` (10_state.md R20; log entry 16). -/
def State.pcAdvance (s : State) (n : Nat) : State := { s with pc := s.pc + BitVec.ofNat 32 n }

/-- `pc_load(t)` (R109): the pattern as an unsigned number, zero-extended to `PCW` bits (R84). -/
def State.pcLoad (s : State) (t : Word) : State := { s with pc := t.setWidth 32 }

/-- `pc_host_set(v)` and, at 0, `pc_reset()` (R109). -/
def State.pcSet (s : State) (v : PcWord) : State := { s with pc := v }

/-- `emit E` (00_scope.md R8): append to the diagnostic trace. -/
def State.emit (s : State) (e : DiagEvent) : State := { s with diag := s.diag ++ [e] }

/-- `stop(c)`: enter `Halted(c)`, all else as the stopping event left it (R10, R138). -/
def State.stop (s : State) (c : StopCause) : State := { s with status := .halted c }

/-- What the unspecified contents after a fault may depend on. -/
def State.faultSite (s : State) : FaultSite where
  draw := s.draws
  x := s.x
  rem := s.rem
  pc := s.pc
  len := s.prog.len
  cells := s.prog.cells

/-- `raise Fault(c)`, the one fault entry (R137): `status <- Faulted(c)`, no event, the program buffer
kept; `x`, `rem` and `pc` are unspecified afterwards, so each is a free value (log entry 5). -/
def State.raiseFault (s : State) (c : FaultCause) : State where
  x := Config.faultRegs s.faultSite
  rem := Config.faultRem s.faultSite
  pc := Config.faultPc s.faultSite
  status := .faulted c
  prog := s.prog
  diag := s.diag
  draws := s.draws + 1

/-- What the host's `HostSetPC` and `HostLoadProgram` do to the status: `Halted(c)` becomes `Running`,
`Faulted(c)` stays (R118, R120, R140). Nothing is restored. -/
def restarted : Status → Status
  | .running => .running
  | .halted _ => .running
  | .faulted c => .faulted c

/-- The end check of a step: `pc >= LEN`, unsigned (40_engine_step.md R70). -/
def State.atEnd (s : State) : Bool := decide (s.prog.len ≤ s.pc.toNat)

/-- The bytes the decoder can be asked for in one step: at most four from `pc` on, as many as the
buffer holds (30_encoding.md R47, R155). -/
def State.fetchWindow (s : State) : List Byte := s.prog.window s.pc.toNat 4

/-- The fault of an instruction cut short by the end of the buffer (20_memory.md R33, R74). -/
def fetchFault : DecodeError → FaultCause
  | .fetchOutOfBounds => .fetchOutOfBounds
  | .registerIndexOutOfRange => .registerIndexOutOfRange

/-- Placing up to four bytes where the next step fetches: at `pc`, or at offset 0 with `pc` set there
when they would not fit below `MAXLEN`; the machine is set running (log entry 8). It stands for a host
load, no rule of the CORE calls it. -/
def State.placeAtFetch (s : State) (bs : List Byte) : State :=
  if s.pc.toNat + 4 ≤ Config.maxLen then
    { s with prog := s.prog.putBytes s.pc.toNat bs, status := .running }
  else
    { s with prog := s.prog.putBytes 0 bs, pc := 0, status := .running }

end Sys2Proof.Machine
end

