-- ==== Sys2Proof/Machine/Operands.lean ====
section
/-! DEFINITION. The operand forms (30_encoding.md R52 to R57) and the readings of a 32-bit pattern (00_scope.md R7). -/

namespace Sys2Proof.Machine

/-- `s32(v)`: the two's-complement reading (R7). -/
abbrev s32 (v : Word) : Int := v.toInt

/-- `wrap32(n)`: the pattern `p` with `u32(p) = n mod 2^32`, the modulus non-negative (R7). -/
def wrap32 (n : Int) : Word := BitVec.ofInt 32 n

/-- The immediate of LOAD, zero-extended to 32 bits (R55). -/
def zext32 (imm : Half) : Word := imm.setWidth 32

/-- The register an index operand names: the whole byte, 32 to 255 name none (R57, R108). -/
def regIndex (b : Byte) : Option (Fin 32) :=
  if h : b.toNat < 32 then some ⟨b.toNat, h⟩ else none

/-- A source operand: its index is checked, then the register is read (R74). -/
def sourceOperand (s : State) (b : Byte) : Except FaultCause Word :=
  match regIndex b with
  | none => .error .registerIndexOutOfRange
  | some i => .ok (s.rfRead i)

/-- A destination operand: its index is checked (R74). -/
def destOperand (b : Byte) : Except FaultCause (Fin 32) :=
  match regIndex b with
  | none => .error .registerIndexOutOfRange
  | some i => .ok i

end Sys2Proof.Machine
end

