-- ==== Sys2Proof/Machine/Flags.lean ====
section
/-! DEFINITION. The machine has NO flags: no status flag, condition code or predicate (10_state.md R24, 43_arithmetic.md R98).
What stands here are the two one-bit fault indications of the `alu` (45_blocks_and_host_interface.md R112). -/

namespace Sys2Proof.Machine

/-- The operators of the `alu` (R112). -/
inductive AluOp where
  | add | sub | mul | div
deriving DecidableEq, Repr

/-- `INT_MIN = -2^31` (00_scope.md R7). -/
abbrev intMin : Int := -2147483648

/-- The output `div_zero`: `op = DIV` and `s32(vb) = 0` (R112, R93). -/
def divZero (op : AluOp) (vb : Word) : Bool := decide (op = .div) && decide (s32 vb = 0)

/-- The output `div_ovf`: `op = DIV`, `s32(va) = INT_MIN` and `s32(vb) = -1` (R112, R94). -/
def divOvf (op : AluOp) (va vb : Word) : Bool :=
  decide (op = .div) && decide (s32 va = intMin) && decide (s32 vb = -1)

end Sys2Proof.Machine
end

