-- ==== Sys2Proof/Machine/Alu.lean ====
section
/-! DEFINITION. The `alu`: a pure function of operator and operands (45_blocks_and_host_interface.md R112,
43_arithmetic.md R88 to R97). -/

namespace Sys2Proof.Machine

/-- What the `alu` answers: `res` for `x[d]` and, for DIV only, `r` for `rem` (R112). -/
structure AluResult where
  res : Word
  r : Option Word
deriving DecidableEq, Repr

/-- `f(va, vb) = wrap32(s32(va) + s32(vb))` (R89). -/
def aluAdd (va vb : Word) : Word := wrap32 (s32 va + s32 vb)

/-- `f(va, vb) = wrap32(s32(va) - s32(vb))` (R90). -/
def aluSub (va vb : Word) : Word := wrap32 (s32 va - s32 vb)

/-- `f(va, vb) = wrap32(s32(va) * s32(vb))` (R91). -/
def aluMul (va vb : Word) : Word := wrap32 (s32 va * s32 vb)

/-- The quotient `q = trunc(n / m)`: the exact quotient with its fraction dropped (R92). -/
def divQuotient (n m : Int) : Int := n.tdiv m

/-- The remainder `r = n - q * m` (R92, R95). -/
def divRemainder (n m : Int) : Int := n - divQuotient n m * m

/-- The `alu`: DIV's two fault conditions in their order (R92, R139), then the result. When a condition
holds there is no result. -/
def alu (op : AluOp) (va vb : Word) : Except FaultCause AluResult :=
  if divZero op vb then .error .divisionByZero
  else if divOvf op va vb then .error .divisionOverflow
  else
    match op with
    | .add => .ok ⟨aluAdd va vb, none⟩
    | .sub => .ok ⟨aluSub va vb, none⟩
    | .mul => .ok ⟨aluMul va vb, none⟩
    | .div =>
      .ok ⟨wrap32 (divQuotient (s32 va) (s32 vb)), some (wrap32 (divRemainder (s32 va) (s32 vb)))⟩

end Sys2Proof.Machine
end

