-- ==== Sys2Proof/Machine/Arithmetic.lean ====
section
/-! DEFINITION. ADD, SUB, MUL and DIV (43_arithmetic.md R88 to R99). -/

namespace Sys2Proof.Machine

/-- The writes of `exec_BINOP`: the destination register, then `rem` where the `alu` gives one (R88). -/
def State.writeResult (s : State) (i : Fin 32) (out : AluResult) : State :=
  match out.r with
  | none => s.rfWrite i out.res
  | some r => (s.rfWrite i out.res).rfWriteRem r

/-- `exec_BINOP(f)` (R88), the checks in the order of R74; sources are read before any write (R99). -/
def execBinop (op : AluOp) (a b d : Byte) (s : State) : Out :=
  match sourceOperand s a with
  | .error c => .next (s.raiseFault c)
  | .ok va =>
    match sourceOperand s b with
    | .error c => .next (s.raiseFault c)
    | .ok vb =>
      match destOperand d with
      | .error c => .next (s.raiseFault c)
      | .ok i =>
        match alu op va vb with
        | .error c => .next (s.raiseFault c)
        | .ok out => .next ((s.writeResult i out).pcAdvance 4)

/-- ADD `rA, rB, rD` (R89). -/
def execAdd (a b d : Byte) (s : State) : Out := execBinop .add a b d s

/-- SUB `rA, rB, rD` (R90). -/
def execSub (a b d : Byte) (s : State) : Out := execBinop .sub a b d s

/-- MUL `rA, rB, rD` (R91). -/
def execMul (a b d : Byte) (s : State) : Out := execBinop .mul a b d s

/-- DIV `rA, rB, rD` (R92). -/
def execDiv (a b d : Byte) (s : State) : Out := execBinop .div a b d s

end Sys2Proof.Machine
end

