-- ==== Sys2Proof/Machine/Halt.lean ====
section
/-! DEFINITION. HLT and the illegal opcode (44_halt_illegal.md R101 to R105). -/

namespace Sys2Proof.Machine

/-- HLT (R101): the event `DIAG_HLT`, `Halted(HLT_INSTRUCTION)`, `pc = pc0 + 1`. -/
def execHlt (s : State) : Out := .next (((s.pcAdvance 1).emit .hlt).stop .hltInstruction)

/-- IGL (R102): the event `DIAG_ILLEGAL`, `Halted(ILLEGAL_OPCODE)`, `pc = pc0 + 1`; no rollback. The
illegal byte itself changes nothing of this. -/
def execIgl (_b : Byte) (s : State) : Out :=
  .next (((s.pcAdvance 1).emit .illegal).stop .illegalOpcode)

end Sys2Proof.Machine
end

