-- ==== Sys2Proof/Machine/Jump.lean ====
section
/-! DEFINITION. JMP (42_jump.md R84 to R86). -/

namespace Sys2Proof.Machine

/-- JMP `rS` (R84): `pc <- u32(x[s])`; no validation of the target, which only the next step sees (R85). -/
def execJmp (r : Byte) (s : State) : Out :=
  match sourceOperand s r with
  | .error c => .next (s.raiseFault c)
  | .ok v => .next (s.pcLoad v)

end Sys2Proof.Machine
end

