-- ==== Sys2Proof/Machine/Load.lean ====
section
/-! DEFINITION. LOAD (41_load.md R81). -/

namespace Sys2Proof.Machine

/-- LOAD `rD, imm` (R81): `x[d] <- zext_32(imm)`, `pc = pc0 + 4`. -/
def execLoad (d : Byte) (imm : Half) (s : State) : Out :=
  match destOperand d with
  | .error c => .next (s.raiseFault c)
  | .ok i => .next ((s.rfWrite i (zext32 imm)).pcAdvance 4)

end Sys2Proof.Machine
end

