-- ==== Sys2Proof/Machine/Dispatch.lean ====
section
/-! DEFINITION. The dispatch over the closed opcode set (40_engine_step.md R72), one arm per constructor. -/

namespace Sys2Proof.Machine

def exec (i : Instr) (s : State) : Host.Outcome State Fault Refusal :=
  match i with
  | .load d imm => Sys2Proof.Machine.execLoad d imm s
  | .add a b d => Sys2Proof.Machine.execAdd a b d s
  | .sub a b d => Sys2Proof.Machine.execSub a b d s
  | .mul a b d => Sys2Proof.Machine.execMul a b d s
  | .div a b d => Sys2Proof.Machine.execDiv a b d s
  | .hlt => Sys2Proof.Machine.execHlt s
  | .jmp r => Sys2Proof.Machine.execJmp r s
  | .igl b => Sys2Proof.Machine.execIgl b s

end Sys2Proof.Machine
end

