-- ==== Sys2Proof/Machine/Step.lean ====
section
/-! DEFINITION. The single-step operation (40_engine_step.md R67 to R74). -/

namespace Sys2Proof.Machine

/-- `step` under any `OPMAP` (R68): the latch (R69), the end check (R70), the decoding (R71), the
dispatch (R72). An instruction cut short by the end of the buffer enters its fault (R33, R74). -/
def stepWith (om : OpMap) (s : State) : Host.Outcome State Fault Refusal :=
  match s.status with
  | .halted _ => .next s
  | .faulted _ => .next s
  | .running =>
    if s.atEnd then .next (s.stop .endOfProgram)
    else
      match decodeWith om s.fetchWindow with
      | .error e => .next (s.raiseFault (fetchFault e))
      | .ok (i, _) => exec i s

/-- `step` under the default `OPMAP` (R59; log entry 1). -/
def step (s : State) : Host.Outcome State Fault Refusal := stepWith defaultOpmap s

/-- The state with the instruction whose bits are `w` (a row of spec/opcode_table.json) where the next
step fetches, the machine running (log entry 8). -/
def State.withFetchWord (s : State) (nbits w : Nat) : State := s.placeAtFetch (tableBytes nbits w)

end Sys2Proof.Machine
end

