-- ==== Sys2Proof/Machine/Driver.lean ====
section
/-! DEFINITION. The outputs of the engine (45_blocks_and_host_interface.md R114) and the drivers `runOnce` and `run`
(40_engine_step.md R75, R76). -/

namespace Sys2Proof.Machine

/-- The cause code of a status (60_exceptions.md R129). -/
def causeCode : Status → Nat
  | .running => 0
  | .halted .endOfProgram => 1
  | .halted .hltInstruction => 2
  | .halted .illegalOpcode => 3
  | .faulted .fetchOutOfBounds => 4
  | .faulted .registerIndexOutOfRange => 5
  | .faulted .divisionByZero => 6
  | .faulted .divisionOverflow => 7

/-- The output `continue` for the status a step leaves: true exactly for `Continue` (R67, R77). -/
def continues : Status → Bool
  | .running => true
  | .halted _ => false
  | .faulted _ => false

/-- The output `fault` for the status a step leaves (R67, R77, R114). -/
def faultOutput : Status → Bool
  | .running => false
  | .halted _ => false
  | .faulted _ => true

/-- The engine's outputs of one step (R114). -/
structure StepOutputs where
  cont : Bool
  fault : Bool
  cause : Nat
  diagEvent : Option DiagEvent
deriving DecidableEq, Repr

/-- The outputs of the step that led from `s` to `t`; the event is the one `t.diag` has beyond `s.diag`. -/
def outputsOf (s t : State) : StepOutputs :=
  ⟨continues t.status, faultOutput t.status, causeCode t.status, (t.diag.drop s.diag.length).head?⟩

/-- One step with its outputs, as the host that calls `step` itself sees it (R123). -/
def stepOutputs (s : State) : Option StepOutputs :=
  match step s with
  | .next t => some (outputsOf s t)
  | .fault _ => none
  | .refused _ => none

/-- `runOnce` (R76): exactly one `step`, its outputs ignored. -/
def runOnce (s : State) : Host.Outcome State Fault Refusal := step s

/-- `n` calls of `step`, one after the other, with no host operation in between (R159). -/
def steps : Nat → State → Host.Outcome State Fault Refusal
  | 0, s => .next s
  | n + 1, s =>
    match step s with
    | .next t => steps n t
    | .fault r => .fault r
    | .refused r => .refused r

/-- What a run with a step budget comes to (R75, R160; log entry 15). -/
inductive RunResult where
  /-- the run returned: the number of step calls, the ending one included, and the final state -/
  | ended (steps : Nat) (s : State)
  /-- the budget is spent and the run goes on -/
  | goesOn (s : State)
  /-- a step answered no next state; no step does -/
  | blocked
deriving DecidableEq, Repr

/-- `run` (R75): steps until one does not continue; `k` counts the step calls before. -/
def runFrom : Nat → Nat → State → RunResult
  | 0, _, s => .goesOn s
  | n + 1, k, s =>
    match step s with
    | .next t => if continues t.status then runFrom n (k + 1) t else .ended (k + 1) t
    | .fault _ => .blocked
    | .refused _ => .blocked

/-- `run` with a budget of `n` steps. -/
def run (n : Nat) (s : State) : RunResult := runFrom n 0 s

end Sys2Proof.Machine
end

