-- ==== Sys2Proof/Machine/HostOps.lean ====
section
/-! DEFINITION. What the host may do between steps (45_blocks_and_host_interface.md R117 to R122). These are functions beside
`step`: the host's liberty to act between any two steps is how they are composed (log entry 13). -/

namespace Sys2Proof.Machine

/-- The operations of the host that change state (R118 to R120, R122). It cannot write `rem` (R17). -/
inductive HostOp where
  /-- `HostReset(bytes?)` (R122) -/
  | reset (bytes : Option (List Byte))
  /-- `HostLoadProgram(bytes)` (R118) -/
  | loadProgram (bytes : List Byte)
  /-- `HostSetRegister(i, v)` (R119) -/
  | setRegister (i : Fin 32) (v : Word)
  /-- `HostSetRegisters(vs)` (R119) -/
  | setRegisters (vs : Vector Word 32)
  /-- `HostSetPC(v)` (R120) -/
  | setPC (v : PcWord)
deriving DecidableEq, Repr

/-- `HostReset(bytes?)` (R122, R146): the reset state with the supplied buffer, `INIT_PROG` otherwise;
a buffer longer than `MAXLEN` is refused (D3). The model's own count `draws` goes on (log entry 6). -/
def hostReset (bytes : Option (List Byte)) (s : State) : Out :=
  match bytes with
  | none => .next { State.reset with draws := s.draws }
  | some bs =>
    if bs.length ≤ Config.maxLen then
      .next { State.reset with prog := Memory.ofBytes bs, draws := s.draws }
    else .refused .programTooLong

/-- `HostLoadProgram(bytes)` (R118): the buffer replaced, a halted machine running again; a buffer
longer than `MAXLEN` is refused (R45). -/
def hostLoadProgram (bytes : List Byte) (s : State) : Out :=
  if bytes.length ≤ Config.maxLen then
    .next { s with prog := Memory.ofBytes bytes, status := restarted s.status }
  else .refused .programTooLong

/-- `HostSetRegister(i, v)` (R119): one register, the status kept (log entry 14). -/
def hostSetRegister (i : Fin 32) (v : Word) (s : State) : Out := .next (s.rfWrite i v)

/-- `HostSetRegisters(vs)` (R119): all general registers, the status kept (log entry 14). -/
def hostSetRegisters (vs : Vector Word 32) (s : State) : Out := .next { s with x := vs }

/-- `HostSetPC(v)` (R120): the counter, a halted machine running again, a faulted one staying faulted (the
counter is written there too: log entry 14). -/
def hostSetPC (v : PcWord) (s : State) : Out :=
  .next { s.pcSet v with status := restarted s.status }

/-- One host operation. -/
def hostDo (op : HostOp) (s : State) : Out :=
  match op with
  | .reset bytes => hostReset bytes s
  | .loadProgram bytes => hostLoadProgram bytes s
  | .setRegister i v => hostSetRegister i v s
  | .setRegisters vs => hostSetRegisters vs s
  | .setPC v => hostSetPC v s

/-- What the host can read between steps (R121): registers, `rem`, `pc`, `status`, `diag`. -/
structure Observation where
  x : Vector Word 32
  rem : Word
  pc : PcWord
  status : Status
  diag : List DiagEvent
deriving DecidableEq, Repr

/-- Reading has no effect (R121). After a fault only `status` may be relied on (R124). -/
def observe (s : State) : Observation := ⟨s.x, s.rfReadRem, s.pc, s.status, s.diag⟩

end Sys2Proof.Machine
end

