-- ==== Sys2Proof/Safety.lean ====
section
/-! DEFINITION. What a well-kept machine is, and which states the CORE and its host can reach. -/

namespace Sys2Proof.Machine

/-- A halted machine shows why it halted (60_exceptions.md R127): at the end of the program `pc >= LEN`;
after HLT or IGL the byte before `pc` is one the map sends to that opcode, and its event is the newest. -/
def HaltSound (om : OpMap) (s : State) : Prop :=
  match s.status with
  | .running => True
  | .faulted _ => True
  | .halted .endOfProgram => s.prog.len ≤ s.pc.toNat
  | .halted .hltInstruction =>
    s.pc ≠ 0 ∧ (s.prog.read (s.pc.toNat - 1)).map om = some .hlt ∧ s.diag.getLast? = some .hlt
  | .halted .illegalOpcode =>
    s.pc ≠ 0 ∧ (s.prog.read (s.pc.toNat - 1)).map om = some .igl ∧ s.diag.getLast? = some .illegal

/-- The invariant of the machine under a map. -/
structure Inv (om : OpMap) (s : State) : Prop where
  /-- the buffer is in canonical form -/
  memWf : s.prog.wf = true
  /-- the host keeps `LEN <= MAXLEN` (20_memory.md R45) -/
  lenOk : s.prog.len ≤ Config.maxLen
  /-- a halted machine shows why -/
  haltSound : HaltSound om s

/-- The states of an instance: from reset, by steps and host operations in any order
(45_blocks_and_host_interface.md R117, R124). -/
inductive Reachable : State → Prop where
  | reset : Reachable State.reset
  | step {s t : State} : Reachable s → step s = .next t → Reachable t
  | host {s t : State} (op : HostOp) : Reachable s → hostDo op s = .next t → Reachable t

/-- The words of frames: status, program buffer (every byte of it) and diagnostic trace are untouched. -/
def Untouched (s t : State) : Prop :=
  t.status = s.status ∧ t.prog = s.prog ∧ (∀ k, t.prog.read k = s.prog.read k) ∧ t.diag = s.diag

/-- Every general register but one reads as before. -/
def RegsKeptBut (d : Fin 32) (s t : State) : Prop := ∀ i, i ≠ d → t.rfRead i = s.rfRead i

/-- Every general register reads as before. -/
def RegsKept (s t : State) : Prop := ∀ i, t.rfRead i = s.rfRead i

/-- What a fault entry leaves defined (60_exceptions.md R137): the status; the buffer and the trace,
to which a fault adds nothing. Nothing is said of `x`, `rem` and `pc`, which are unspecified. -/
def FaultEntry (c : FaultCause) (s t : State) : Prop :=
  t.status = .faulted c ∧ t.prog = s.prog ∧ (∀ k, t.prog.read k = s.prog.read k) ∧ t.diag = s.diag

/-- The status is a fault. -/
def isFaulted (s : State) : Prop := ∃ c, s.status = .faulted c

/-! The shared shape of the three-register instructions (43_arithmetic.md R88, in the order of 40_engine_step.md R74),
used by the statements about ADD, SUB, MUL and DIV. -/

/-- One step on the opcode byte `opc` of a three-register instruction: the fault met first, operand by
operand, or `effect` of the two source values and the destination register. -/
def BinopStep (opc : Byte)
    (effect : Word → Word → Fin 32 → State → State → Prop) : Prop :=
  ∀ s : State, s.status = .running → s.prog.len ≤ Config.maxLen →
    s.prog.read s.pc.toNat = some opc →
    ∃ t, step s = .next t ∧
      (s.prog.read (s.pc.toNat + 1) = none → FaultEntry .fetchOutOfBounds s t) ∧
      ∀ a, s.prog.read (s.pc.toNat + 1) = some a →
        (32 ≤ a.toNat → FaultEntry .registerIndexOutOfRange s t) ∧
        ∀ ha : a.toNat < 32,
          (s.prog.read (s.pc.toNat + 2) = none → FaultEntry .fetchOutOfBounds s t) ∧
          ∀ b, s.prog.read (s.pc.toNat + 2) = some b →
            (32 ≤ b.toNat → FaultEntry .registerIndexOutOfRange s t) ∧
            ∀ hb : b.toNat < 32,
              (s.prog.read (s.pc.toNat + 3) = none → FaultEntry .fetchOutOfBounds s t) ∧
              ∀ d, s.prog.read (s.pc.toNat + 3) = some d →
                (32 ≤ d.toNat → FaultEntry .registerIndexOutOfRange s t) ∧
                ∀ hd : d.toNat < 32,
                  effect (s.rfRead ⟨a.toNat, ha⟩) (s.rfRead ⟨b.toNat, hb⟩) ⟨d.toNat, hd⟩ s t

/-- The effect of ADD, SUB and MUL for the operator `f` on integers (R89 to R91): the low 32 bits of the
exact result of the signed readings; nothing else but `pc`, which is four further (R19). -/
def WrapEffect (f : Int → Int → Int) (va vb : Word) (d : Fin 32) (s t : State) :
    Prop :=
  ((t.rfRead d).toNat : Int) = f va.toInt vb.toInt % 4294967296 ∧ RegsKeptBut d s t ∧
    t.rem = s.rem ∧ t.pc.toNat = s.pc.toNat + 4 ∧ Untouched s t

/-- The effect of DIV (R92 to R95). -/
def DivEffect (va vb : Word) (d : Fin 32) (s t : State) : Prop :=
  (vb.toInt = 0 → FaultEntry .divisionByZero s t) ∧
  (va.toInt = -2147483648 → vb.toInt = -1 → FaultEntry .divisionOverflow s t) ∧
  (vb.toInt ≠ 0 → ¬(va.toInt = -2147483648 ∧ vb.toInt = -1) →
    (∃ r : Int, va.toInt = (t.rfRead d).toInt * vb.toInt + r ∧ r.natAbs < vb.toInt.natAbs ∧
      (r = 0 ∨ (0 < r ∧ 0 < va.toInt) ∨ (r < 0 ∧ va.toInt < 0)) ∧
      (t.rem.toNat : Int) = r % 4294967296) ∧
    RegsKeptBut d s t ∧ t.pc.toNat = s.pc.toNat + 4 ∧ Untouched s t)

end Sys2Proof.Machine
end

