-- ==== Sys2Proof/WellFormed.lean ====
section
/-! DEFINITION. Which instruction terms an encoding exists for, and which name registers only. -/

namespace Sys2Proof

/-- An instruction term is well formed under an `OPMAP` when bytes encode it: an `igl` holds a byte
that the map sends to the illegal opcode (30_encoding.md R60). Every register-index byte can be
encoded, those that fault included (R61). -/
def wellFormedFor (om : OpMap) : Instr → Bool
  | .igl b => decide (om b = .igl)
  | _ => true

/-- Well-formedness under the default `OPMAP`. -/
def wellFormed (i : Instr) : Bool := wellFormedFor defaultOpmap i

/-- Every register-index operand names a register, so the instruction raises no
`REGISTER_INDEX_OUT_OF_RANGE` (R57). -/
def indicesInRange (i : Instr) : Bool := (indexOperands i).all indexInRange

end Sys2Proof
end

