-- ==== Sys2Proof/Certificates/Slice0/Obligations.lean ====
section
/-! DEFINITION. The statements for the provers. Each docstring names the rule of spec/ it formalises. -/

open Sys2Proof Sys2Proof.Machine

/-! ## Reset -/

/-- R29: what reset leaves. -/
def Obligations.ResetState : Prop :=
  (∀ i, State.reset.rfRead i = 0) ∧ State.reset.rem = 0 ∧ State.reset.pc = 0 ∧
    State.reset.status = .running ∧ State.reset.prog.len = 0 ∧
    (∀ k, State.reset.prog.read k = none) ∧ State.reset.diag = []

/-- The invariant holds at reset (R29, R45), under every `OPMAP`. -/
def Obligations.ResetMeetsInvariant : Prop := ∀ om, Inv om State.reset

/-! ## Decoding -/

/-- Words written out from R59 and R47, one for each format and the first and last illegal byte. -/
def Obligations.WrittenWordsDecode : Prop :=
  decode [0x00, 0x03, 0xAB, 0xCD] = .ok (.load 3 0xABCD, []) ∧
    decode [0x04, 0x00, 0x01, 0x02, 0x05] = .ok (.div 0 1 2, [0x05]) ∧
    decode [0x06, 0x05] = .ok (.jmp 5, []) ∧ decode [0x05] = .ok (.hlt, []) ∧
    decode [0x07] = .ok (.igl 0x07, []) ∧ decode [0xFF] = .ok (.igl 0xFF, [])

/-- R47, R52 to R56, R58: decoding an encoded well-formed instruction gives it back, every operand at
every value, under every `OPMAP` with opcode bytes that the map sends back, the default among them. -/
def Obligations.DecodeOfEncode : Prop :=
  (∀ (om : OpMap) (ob : Opcode → Byte), (∀ op, op ≠ .igl → om (ob op) = op) →
    ∀ i rest, wellFormedFor om i = true →
      decodeWith om (encodeWith ob i ++ rest) = .ok (i, rest)) ∧
  ∀ i rest, wellFormed i = true → decode (encode i ++ rest) = .ok (i, rest)

/-- R47, R52 to R56, R59, R61: what decodes is the encoding of what it decodes to, and well formed. -/
def Obligations.EncodeOfDecode : Prop :=
  ∀ bs i rest, decode bs = .ok (i, rest) → wellFormed i = true ∧ encode i ++ rest = bs

/-- R103: every one of the 256 opcode bytes reaches exactly one of the eight arms, every byte not mapped
to one of the seven named opcodes the illegal one; no byte value makes decoding fail. -/
def Obligations.EveryOpcodeByteHasItsArm : Prop :=
  ∀ (b : Byte) (rest : List Byte), 3 ≤ rest.length →
    ∃ i, decode (b :: rest) = .ok (i, rest.drop (opcodeLength (opcodeOf i) - 1)) ∧
      opcodeOf i = (if b = 0 then .load else if b = 1 then .add else if b = 2 then .sub
        else if b = 3 then .mul else if b = 4 then .div else if b = 5 then .hlt
        else if b = 6 then .jmp else .igl) ∧
      (opcodeOf i = .igl ↔ i = .igl b)

/-- R62: the length is told from the symbolic opcode alone: LOAD, ADD, SUB, MUL, DIV 4 bytes, JMP 2,
HLT and IGL 1; the operand bytes never affect it. Under every `OPMAP`. -/
def Obligations.LengthFromOpcodeAlone : Prop :=
  ∀ (om : OpMap) (b : Byte) (bs : List Byte) (i : Instr) (rest : List Byte),
    decodeWith om (b :: bs) = .ok (i, rest) →
      (b :: bs).length = rest.length + (match om b with
        | .load => 4 | .add => 4 | .sub => 4 | .mul => 4 | .div => 4
        | .jmp => 2 | .hlt => 1 | .igl => 1)

/-- R157 (a prefetch is unobservable): decoding from a longer window of the buffer gives the same
instruction, or the same refusal, as from the four bytes a step looks at. -/
def Obligations.LongerPrefetchDecodesAlike : Prop :=
  ∀ (om : OpMap) (m : Memory) (a n : Nat), 4 ≤ n →
    (decodeWith om (m.window a n)).map Prod.fst = (decodeWith om (m.window a 4)).map Prod.fst

/-! ## The step -/

/-- R68, R71, R72: when the bytes at `pc` decode to an instruction, a step of the running machine is
`exec` of that instruction, with nothing around it (each meaning moves `pc` itself); under every `OPMAP`
and for `step`; and the bytes decoded are those at `pc`. -/
def Obligations.StepRunsDecodedInstruction : Prop :=
  (∀ (om : OpMap) (s : State) (i : Instr) (rest : List Byte), s.status = .running →
    s.pc.toNat < s.prog.len → decodeWith om s.fetchWindow = .ok (i, rest) →
      stepWith om s = exec i s) ∧
  (∀ (s : State) (i : Instr) (rest : List Byte), s.status = .running →
    s.pc.toNat < s.prog.len → decode s.fetchWindow = .ok (i, rest) → step s = exec i s) ∧
  ∀ (s : State) (k : Nat), k < 4 → s.fetchWindow[k]? = s.prog.read (s.pc.toNat + k)

/-- R46, R68: an encoded instruction in the buffer at `pc` is what a step of the running machine executes. -/
def Obligations.StepRunsEncodedInstruction : Prop :=
  ∀ (s : State) (i : Instr), wellFormed i = true → s.status = .running →
    (∀ k, k < (encode i).length → s.prog.read (s.pc.toNat + k) = (encode i)[k]?) →
      step s = exec i s

/-- R69: a step taken when `status` is not `Running` changes nothing and emits nothing. -/
def Obligations.StoppedMachineStaysAsItIs : Prop :=
  ∀ s : State, s.status ≠ .running →
    step s = .next s ∧
      stepOutputs s = some ⟨false, faultOutput s.status, causeCode s.status, none⟩

/-- R70: the end check. -/
def Obligations.EndOfProgramStops : Prop :=
  ∀ s : State, s.status = .running → s.prog.len ≤ s.pc.toNat →
    ∃ t, step s = .next t ∧ t.status = .halted .endOfProgram ∧ RegsKept s t ∧ t.rem = s.rem ∧
      t.pc = s.pc ∧ t.prog = s.prog ∧ t.diag = s.diag ∧
      stepOutputs s = some ⟨false, false, 1, none⟩

/-- R81: LOAD, its encoding, its effect and its exceptions in their order. -/
def Obligations.LoadStep : Prop :=
  ∀ s : State, s.status = .running → s.prog.len ≤ Config.maxLen →
    s.prog.read s.pc.toNat = some 0x00 →
    ∃ t, step s = .next t ∧
      (s.prog.read (s.pc.toNat + 1) = none → FaultEntry .fetchOutOfBounds s t) ∧
      ∀ d, s.prog.read (s.pc.toNat + 1) = some d →
        (32 ≤ d.toNat → FaultEntry .registerIndexOutOfRange s t) ∧
        ∀ hd : d.toNat < 32,
          (s.prog.len < s.pc.toNat + 4 → FaultEntry .fetchOutOfBounds s t) ∧
          ∀ hi lo, s.prog.read (s.pc.toNat + 2) = some hi → s.prog.read (s.pc.toNat + 3) = some lo →
            (t.rfRead ⟨d.toNat, hd⟩).toNat = hi.toNat * 256 + lo.toNat ∧
              RegsKeptBut ⟨d.toNat, hd⟩ s t ∧ t.rem = s.rem ∧ t.pc.toNat = s.pc.toNat + 4 ∧
              Untouched s t

/-- R84: JMP, its encoding, its effect and its exceptions in their order. For a register that is not
negative the counter is exactly its value; for a negative one the counter lies at or past the end of the
buffer, and nothing is said of its number (93_implementation_defined.md U10; log entry 2). -/
def Obligations.JmpStep : Prop :=
  ∀ s : State, s.status = .running → s.prog.len ≤ Config.maxLen →
    s.prog.read s.pc.toNat = some 0x06 →
    ∃ t, step s = .next t ∧
      (s.prog.read (s.pc.toNat + 1) = none → FaultEntry .fetchOutOfBounds s t) ∧
      ∀ r, s.prog.read (s.pc.toNat + 1) = some r →
        (32 ≤ r.toNat → FaultEntry .registerIndexOutOfRange s t) ∧
        ∀ hr : r.toNat < 32,
          (0 ≤ (s.rfRead ⟨r.toNat, hr⟩).toInt →
            (t.pc.toNat : Int) = (s.rfRead ⟨r.toNat, hr⟩).toInt) ∧
          ((s.rfRead ⟨r.toNat, hr⟩).toInt < 0 → s.prog.len ≤ t.pc.toNat) ∧
          RegsKept s t ∧ t.rem = s.rem ∧ Untouched s t

/-- R89: ADD. -/
def Obligations.AddStep : Prop := BinopStep 0x01 (WrapEffect fun n m => n + m)

/-- R90: SUB, first source minus second source. -/
def Obligations.SubStep : Prop := BinopStep 0x02 (WrapEffect fun n m => n - m)

/-- R91: MUL, the low 32 bits of the product. -/
def Obligations.MulStep : Prop := BinopStep 0x03 (WrapEffect fun n m => n * m)

/-- R92, R93, R94, R95: DIV. The quotient is the truncated one: with the remainder smaller than the
divisor and of the dividend's sign (or zero) there is no other. -/
def Obligations.DivStep : Prop := BinopStep 0x04 DivEffect

/-- R101: HLT, whatever follows it in the buffer. -/
def Obligations.HltStep : Prop :=
  ∀ s : State, s.status = .running → s.prog.len ≤ Config.maxLen →
    s.prog.read s.pc.toNat = some 0x05 →
    ∃ t, step s = .next t ∧ t.pc.toNat = s.pc.toNat + 1 ∧
      t.status = .halted .hltInstruction ∧ t.diag = s.diag ++ [.hlt] ∧ RegsKept s t ∧
      t.rem = s.rem ∧ t.prog = s.prog ∧ (∀ k, t.prog.read k = s.prog.read k) ∧
      stepOutputs s = some ⟨false, false, 2, some .hlt⟩

/-- R102: the illegal opcode, for each of the 249 bytes 0x07 to 0xFF. -/
def Obligations.IglStep : Prop :=
  ∀ (s : State) (b : Byte), s.status = .running → s.prog.len ≤ Config.maxLen →
    s.prog.read s.pc.toNat = some b → 7 ≤ b.toNat →
    ∃ t, step s = .next t ∧ t.pc.toNat = s.pc.toNat + 1 ∧
      t.status = .halted .illegalOpcode ∧ t.diag = s.diag ++ [.illegal] ∧ RegsKept s t ∧
      t.rem = s.rem ∧ t.prog = s.prog ∧ (∀ k, t.prog.read k = s.prog.read k) ∧
      stepOutputs s = some ⟨false, false, 3, some .illegal⟩

/-! ## What exec answers, instruction by instruction -/

/-- R81, R55: LOAD completes, with its result and its frame, exactly when its index names a register. -/
def Obligations.LoadCompletes : Prop :=
  ∀ (s : State) (d : Byte) (imm : Half) (hd : d.toNat < 32),
    ∃ t, exec (.load d imm) s = .next t ∧
      (t.rfRead ⟨d.toNat, hd⟩).toInt = (imm.toNat : Int) ∧ RegsKeptBut ⟨d.toNat, hd⟩ s t ∧
      t.rem = s.rem ∧ t.pc = s.pc + 4 ∧ Untouched s t

/-- R88 to R91, R96: ADD, SUB and MUL complete on all values when their indices name registers; the
result is that of unsigned words; `d` may equal `a` or `b`. -/
def Obligations.AddSubMulComplete : Prop :=
  ∀ (s : State) (a b d : Byte) (ha : a.toNat < 32) (hb : b.toNat < 32) (hd : d.toNat < 32)
    (i : Instr) (v : Word),
    (i, v) ∈ [(Instr.add a b d, s.rfRead ⟨a.toNat, ha⟩ + s.rfRead ⟨b.toNat, hb⟩),
      (Instr.sub a b d, s.rfRead ⟨a.toNat, ha⟩ - s.rfRead ⟨b.toNat, hb⟩),
      (Instr.mul a b d, s.rfRead ⟨a.toNat, ha⟩ * s.rfRead ⟨b.toNat, hb⟩)] →
    ∃ t, exec i s = .next t ∧ t.rfRead ⟨d.toNat, hd⟩ = v ∧ RegsKeptBut ⟨d.toNat, hd⟩ s t ∧
      t.rem = s.rem ∧ t.pc = s.pc + 4 ∧ Untouched s t

/-- R88, R92, R95: DIV completes when its indices name registers, the divisor is not 0 and the operands
are not `INT_MIN` and -1; quotient and remainder are those of division truncating toward zero. -/
def Obligations.DivCompletes : Prop :=
  ∀ (s : State) (a b d : Byte) (ha : a.toNat < 32) (hb : b.toNat < 32) (hd : d.toNat < 32),
    (s.rfRead ⟨b.toNat, hb⟩).toInt ≠ 0 →
    ¬((s.rfRead ⟨a.toNat, ha⟩).toInt = -2147483648 ∧ (s.rfRead ⟨b.toNat, hb⟩).toInt = -1) →
    ∃ t, exec (.div a b d) s = .next t ∧
      (t.rfRead ⟨d.toNat, hd⟩).toInt =
        (s.rfRead ⟨a.toNat, ha⟩).toInt.tdiv (s.rfRead ⟨b.toNat, hb⟩).toInt ∧
      t.rem.toInt = (s.rfRead ⟨a.toNat, ha⟩).toInt.tmod (s.rfRead ⟨b.toNat, hb⟩).toInt ∧
      RegsKeptBut ⟨d.toNat, hd⟩ s t ∧ t.pc = s.pc + 4 ∧ Untouched s t

/-- R84: JMP completes when its index names a register, and writes `pc` only. Of a negative register's
target only that it is past every admitted buffer is said (U10). -/
def Obligations.JmpCompletes : Prop :=
  ∀ (s : State) (r : Byte) (hr : r.toNat < 32),
    ∃ t, exec (.jmp r) s = .next t ∧
      (0 ≤ (s.rfRead ⟨r.toNat, hr⟩).toInt →
        (t.pc.toNat : Int) = (s.rfRead ⟨r.toNat, hr⟩).toInt) ∧
      ((s.rfRead ⟨r.toNat, hr⟩).toInt < 0 → Config.maxLen ≤ t.pc.toNat) ∧
      RegsKept s t ∧ t.rem = s.rem ∧ Untouched s t

/-- R101, R102: HLT and every illegal byte complete in every state: they halt, each with its own cause
and event, `pc` one further, no register, not `rem` and no byte of the buffer changed. -/
def Obligations.HltAndIglComplete : Prop :=
  ∀ (s : State) (b : Byte) (i : Instr) (c : StopCause) (e : DiagEvent),
    (i, c, e) ∈ [(Instr.hlt, StopCause.hltInstruction, DiagEvent.hlt),
      (Instr.igl b, StopCause.illegalOpcode, DiagEvent.illegal)] →
    ∃ t, exec i s = .next t ∧ t.status = .halted c ∧ t.diag = s.diag ++ [e] ∧ t.pc = s.pc + 1 ∧
      RegsKept s t ∧ t.rem = s.rem ∧ t.prog = s.prog ∧ ∀ k, t.prog.read k = s.prog.read k

/-- R57, R74, R134: an instruction with any register index of 32 to 255 enters
`Faulted(REGISTER_INDEX_OUT_OF_RANGE)`, whatever the registers hold (a zero divisor too). -/
def Obligations.BadIndexFaults : Prop :=
  ∀ (i : Instr) (s : State), (∃ b ∈ indexOperands i, 32 ≤ b.toNat) →
    ∃ t, exec i s = .next t ∧ FaultEntry .registerIndexOutOfRange s t

/-- R93: division by zero, whatever the dividend. -/
def Obligations.DivisionByZeroFaults : Prop :=
  ∀ (s : State) (a b d : Byte) (hb : b.toNat < 32), a.toNat < 32 → d.toNat < 32 →
    (s.rfRead ⟨b.toNat, hb⟩).toInt = 0 →
    ∃ t, exec (.div a b d) s = .next t ∧ FaultEntry .divisionByZero s t

/-- R94: `INT_MIN / -1`. -/
def Obligations.DivisionOverflowFaults : Prop :=
  ∀ (s : State) (a b d : Byte) (ha : a.toNat < 32) (hb : b.toNat < 32), d.toNat < 32 →
    (s.rfRead ⟨a.toNat, ha⟩).toInt = -2147483648 → (s.rfRead ⟨b.toNat, hb⟩).toInt = -1 →
    ∃ t, exec (.div a b d) s = .next t ∧ FaultEntry .divisionOverflow s t

/-- R99: one register as both sources and destination. -/
def Obligations.SameRegisterOperands : Prop :=
  ∀ (s : State) (r : Byte) (hr : r.toNat < 32) (v : Word), v = s.rfRead ⟨r.toNat, hr⟩ →
    (∃ t, exec (.add r r r) s = .next t ∧ t.rfRead ⟨r.toNat, hr⟩ = 2 * v) ∧
    (∃ t, exec (.sub r r r) s = .next t ∧ t.rfRead ⟨r.toNat, hr⟩ = 0) ∧
    (∃ t, exec (.mul r r r) s = .next t ∧ t.rfRead ⟨r.toNat, hr⟩ = v * v) ∧
    (v ≠ 0 → ∃ t, exec (.div r r r) s = .next t ∧ t.rfRead ⟨r.toNat, hr⟩ = 1 ∧ t.rem = 0)

/-! ## Whole-machine rules -/

/-- Every step keeps the invariant: the buffer's canonical form, `LEN <= MAXLEN`, and that a halted
machine shows why it halted (R32, R45, R127). -/
def Obligations.StepKeepsInvariant : Prop :=
  ∀ s t : State, Inv defaultOpmap s → step s = .next t → Inv defaultOpmap t

/-- The same under every `OPMAP`, and for everything the host may do between steps (R118 to R122). -/
def Obligations.AnyMapAndHostKeepInvariant : Prop :=
  (∀ (om : OpMap) (s t : State), Inv om s → stepWith om s = .next t → Inv om t) ∧
  ∀ (om : OpMap) (op : HostOp) (s t : State), Inv om s → hostDo op s = .next t → Inv om t

/-- Every state an instance can reach, from reset by steps and host operations in any order, meets the
invariant (R29, R117, R124): the induction over reset, steps and host operations. -/
def Obligations.ReachableStatesMeetInvariant : Prop :=
  ∀ s : State, Reachable s → Inv defaultOpmap s

/-- R32: the CORE never writes the program buffer and never changes its length. -/
def Obligations.ProgramNeverWritten : Prop :=
  ∀ (om : OpMap) (s t : State), stepWith om s = .next t →
    t.prog.len = s.prog.len ∧ (∀ k, t.prog.read k = s.prog.read k) ∧ t.prog = s.prog

/-- R17: `rem` is written by DIV and by nothing else during a run (after a fault it is unspecified). -/
def Obligations.RemainderOnlyByDiv : Prop :=
  ∀ (om : OpMap) (s t : State), stepWith om s = .next t → ¬ isFaulted t → t.rem ≠ s.rem →
    s.status = .running ∧ (s.prog.read s.pc.toNat).map om = some .div

/-- R15: the general registers written in a step: at most the one a LOAD, ADD, SUB, MUL or DIV names. -/
def Obligations.RegistersWrittenByFive : Prop :=
  ∀ (om : OpMap) (s t : State), stepWith om s = .next t → ¬ isFaulted t →
    RegsKept s t ∨
      s.status = .running ∧ (∃ d, RegsKeptBut d s t) ∧
        ∃ op, (s.prog.read s.pc.toNat).map om = some op ∧
          op ∈ [Opcode.load, .add, .sub, .mul, .div]

/-- R105: HLT and IGL are the only instructions that emit an event, one each, at the step that halts. -/
def Obligations.EventsOnlyFromHltAndIgl : Prop :=
  ∀ (om : OpMap) (s t : State), stepWith om s = .next t →
    t.diag = s.diag ∨
      (t.diag = s.diag ++ [.hlt] ∧ (s.prog.read s.pc.toNat).map om = some .hlt ∧
        t.status = .halted .hltInstruction) ∨
      (t.diag = s.diag ++ [.illegal] ∧ (s.prog.read s.pc.toNat).map om = some .igl ∧
        t.status = .halted .illegalOpcode)

/-- R10, R80: every step has an outcome with a next state: no state makes a step end in the host's fault
or refusal. -/
def Obligations.EveryStepAnswers : Prop :=
  ∀ (om : OpMap) (s : State), ∃ t, stepWith om s = .next t

/-- R77: the transitions out of `Running`, under every `OPMAP`. -/
def Obligations.TransitionsFromRunning : Prop :=
  ∀ (om : OpMap) (s t : State), s.status = .running → stepWith om s = .next t →
    (t.status = .halted .endOfProgram ↔ s.prog.len ≤ s.pc.toNat) ∧
    (t.status = .halted .hltInstruction ↔ (s.prog.read s.pc.toNat).map om = some .hlt) ∧
    (t.status = .halted .illegalOpcode ↔ (s.prog.read s.pc.toNat).map om = some .igl) ∧
    ((t.status = .running ∨ isFaulted t) ↔
      ∃ op, (s.prog.read s.pc.toNat).map om = some op ∧
        op ∈ [Opcode.load, .jmp, .add, .sub, .mul, .div])

/-- R67, R114: the outputs of a step; `continue` exactly when the machine runs on, `fault` exactly when
its status is a fault, the cause code of R129. -/
def Obligations.OutputsSayTheOutcome : Prop :=
  ∀ s t : State, step s = .next t →
    ∃ o, stepOutputs s = some o ∧ (o.cont = true ↔ t.status = .running) ∧
      (o.fault = true ↔ isFaulted t) ∧
      ([Status.running, .halted .endOfProgram, .halted .hltInstruction, .halted .illegalOpcode,
        .faulted .fetchOutOfBounds, .faulted .registerIndexOutOfRange, .faulted .divisionByZero,
        .faulted .divisionOverflow][o.cause]? = some t.status) ∧
      t.diag = s.diag ++ o.diagEvent.toList

/-- R19, R20: how `pc` moves in a step that executes an instruction and does not fault: past the
instruction's bytes, without wrapping, or for JMP to its target. -/
def Obligations.PcMovesByRule : Prop :=
  ∀ (s t : State) (b : Byte), s.status = .running → s.prog.len ≤ Config.maxLen →
    s.prog.read s.pc.toNat = some b → step s = .next t → ¬ isFaulted t →
    (defaultOpmap b ≠ .jmp → t.pc.toNat = s.pc.toNat + opcodeLength (defaultOpmap b)) ∧
    (defaultOpmap b = .jmp → ∃ (r : Byte) (hr : r.toNat < 32),
      s.prog.read (s.pc.toNat + 1) = some r ∧
      (0 ≤ (s.rfRead ⟨r.toNat, hr⟩).toInt →
        (t.pc.toNat : Int) = (s.rfRead ⟨r.toNat, hr⟩).toInt))

/-- R85: a jump to an offset at or past the end, every negative register included, ends the run at the
next step, normally and with nothing else changed. -/
def Obligations.JumpPastEndEndsRun : Prop :=
  ∀ (s : State) (r : Byte) (hr : r.toNat < 32), s.status = .running →
    s.prog.len ≤ Config.maxLen →
    ((s.rfRead ⟨r.toNat, hr⟩).toInt < 0 ∨ (s.prog.len : Int) ≤ (s.rfRead ⟨r.toNat, hr⟩).toInt) →
    ∃ t u, exec (.jmp r) s = .next t ∧ step t = .next u ∧ u.status = .halted .endOfProgram ∧
      u.pc = t.pc ∧ RegsKept s u ∧ u.rem = s.rem ∧ u.prog = s.prog ∧ u.diag = s.diag

/-- R79, R86: a JMP to its own offset is an endless loop: the step leaves the machine exactly as it was,
and so does any number of steps. -/
def Obligations.JumpToSelfLoops : Prop :=
  ∀ (s : State) (r : Byte) (hr : r.toNat < 32), s.status = .running →
    s.prog.read s.pc.toNat = some 0x06 → s.prog.read (s.pc.toNat + 1) = some r →
    s.rfRead ⟨r.toNat, hr⟩ = s.pc → ∀ n, steps n s = .next s

/-- R125: no instruction reads `rem` or `diag`: other values in them change neither the outcome nor,
short of a fault, registers, counter and buffer. -/
def Obligations.RemAndDiagSteerNothing : Prop :=
  ∀ (om : OpMap) (s t : State) (r : Word) (ds : List DiagEvent), stepWith om s = .next t →
    ∃ t', stepWith om { s with rem := r, diag := ds } = .next t' ∧ t'.status = t.status ∧
      t'.prog = t.prog ∧ (¬ isFaulted t → RegsKept t t' ∧ t'.pc = t.pc)

/-! ## Host operations -/

/-- R118: `HostLoadProgram`. -/
def Obligations.HostLoadProgramRule : Prop :=
  ∀ (bs : List Byte) (s : State),
    (bs.length ≤ Config.maxLen → ∃ t, hostLoadProgram bs s = .next t ∧ t.prog.len = bs.length ∧
      (∀ k, t.prog.read k = bs[k]?) ∧ RegsKept s t ∧ t.rem = s.rem ∧ t.pc = s.pc ∧
      t.diag = s.diag ∧ (isFaulted s → t.status = s.status) ∧
      (¬ isFaulted s → t.status = .running)) ∧
    (Config.maxLen < bs.length → hostLoadProgram bs s = .refused .programTooLong)

/-- `HostSetRegister` writes that register and nothing else, `HostSetRegisters` all 32: R119 on a machine
that is not faulted. That the written values are held on a faulted one as well is the model's choice (log
entry 14, DEDUCED, unsafe): R137, R124 and R151 let no claim about the hardware read `x` after a fault. -/
def Obligations.HostSetRegisterRule : Prop :=
  (∀ (i : Fin 32) (v : Word) (s : State), ∃ t, hostSetRegister i v s = .next t ∧
    t.rfRead i = v ∧ RegsKeptBut i s t ∧ t.rem = s.rem ∧ t.pc = s.pc ∧ Untouched s t) ∧
  ∀ (vs : Vector Word 32) (s : State), ∃ t, hostSetRegisters vs s = .next t ∧
    (∀ i : Fin 32, t.rfRead i = vs.get i) ∧ t.rem = s.rem ∧ t.pc = s.pc ∧ Untouched s t

/-- `HostSetPC`: R120 on a machine that is not faulted. That `pc` holds the written value on a faulted one
as well is the model's choice (log entry 14, DEDUCED, unsafe): R137, R124 and R151 let no claim about the
hardware read `pc` after a fault; that the status stays `Faulted` there is R120's. -/
def Obligations.HostSetPcRule : Prop :=
  ∀ (v : PcWord) (s : State), ∃ t, hostSetPC v s = .next t ∧ t.pc = v ∧ RegsKept s t ∧
    t.rem = s.rem ∧ t.diag = s.diag ∧ t.prog = s.prog ∧ (isFaulted s → t.status = s.status) ∧
    (¬ isFaulted s → t.status = .running)

/-- R146: `HostReset` from any state, with a buffer or without; one longer than `MAXLEN` is refused (D3). -/
def Obligations.HostResetRule : Prop :=
  (∀ (bytes : Option (List Byte)) (s : State), (bytes.getD []).length ≤ Config.maxLen →
    ∃ t, hostReset bytes s = .next t ∧ (∀ i, t.rfRead i = 0) ∧ t.rem = 0 ∧ t.pc = 0 ∧
      t.status = .running ∧ t.diag = [] ∧ t.prog.len = (bytes.getD []).length ∧
      ∀ k, t.prog.read k = (bytes.getD [])[k]?) ∧
  ∀ (bs : List Byte) (s : State), Config.maxLen < bs.length →
    hostReset (some bs) s = .refused .programTooLong

/-- R137, R77: `Faulted` is left only by `HostReset`: no step and no other host operation leaves it. -/
def Obligations.FaultedLeftOnlyByReset : Prop :=
  ∀ (s t : State) (c : FaultCause), s.status = .faulted c →
    (∀ om, stepWith om s = .next t → t = s) ∧
    ∀ op, hostDo op s = .next t → t.status ≠ .faulted c → ∃ bytes, op = .reset bytes

/-! ## Memory and drivers -/

/-- The canonical form is one: two buffers of one length that read alike are equal data (R22). -/
def Obligations.CanonicalBuffersAreUnique : Prop :=
  ∀ m n : Memory, m.wf = true → n.wf = true → m.len = n.len →
    (∀ k, m.read k = n.read k) → m = n

/-- R75, R124, R160: a `run` that returns has taken as many steps as it says, one at least and no more
than its budget; every one before the last continued, and the machine it leaves is halted or faulted. -/
def Obligations.RunReturnsStoppedMachine : Prop :=
  ∀ (n k : Nat) (s t : State), run n s = .ended k t →
    1 ≤ k ∧ k ≤ n ∧ steps k s = .next t ∧ t.status ≠ .running ∧
      ∀ j u, 1 ≤ j → j < k → steps j s = .next u → u.status = .running

/-- R75, R80: the budget decides only whether `run` returns: a larger one gives the same end, and no
`run` is blocked. -/
def Obligations.LargerBudgetSameRun : Prop :=
  (∀ (n m k : Nat) (s t : State), n ≤ m → run n s = .ended k t → run m s = .ended k t) ∧
  ∀ (n : Nat) (s : State), run n s ≠ .blocked
end

