-- ==== Sys2Proof/Laws/Decode.lean ====
section
/-! SUPPORT. Byte order, the default opcode bytes, and what the operand decoders accept. -/

namespace Sys2Proof

/-- The value of a big-endian pair (20_memory.md R34). -/
theorem toNat_bigEndian (hi lo : Byte) : (bigEndian hi lo).toNat = hi.toNat * 256 + lo.toNat := by
  have h := Nat.shiftLeft_add_eq_or_of_lt (a := hi.toNat) (b := lo.toNat) (i := 8) lo.isLt
  rw [bigEndian, BitVec.toNat_append, ← h, Nat.shiftLeft_eq]

theorem toNat_highByte (v : Half) : (highByte v).toNat = v.toNat / 256 := by
  have h : v.toNat < 65536 := v.isLt
  simp only [highByte, BitVec.extractLsb'_toNat, Nat.shiftRight_eq_div_pow]
  omega

theorem toNat_lowByte (v : Half) : (lowByte v).toNat = v.toNat % 256 := by
  simp [lowByte, BitVec.extractLsb'_toNat]

/-- The two bytes of a value, put together again, are the value. -/
@[simp] theorem bigEndian_bytes (v : Half) : bigEndian (highByte v) (lowByte v) = v := by
  apply BitVec.eq_of_toNat_eq
  rw [toNat_bigEndian, toNat_highByte, toNat_lowByte]
  omega

@[simp] theorem highByte_bigEndian (hi lo : Byte) : highByte (bigEndian hi lo) = hi := by
  apply BitVec.eq_of_toNat_eq
  have := lo.isLt
  rw [toNat_highByte, toNat_bigEndian]
  omega

@[simp] theorem lowByte_bigEndian (hi lo : Byte) : lowByte (bigEndian hi lo) = lo := by
  apply BitVec.eq_of_toNat_eq
  have := lo.isLt
  rw [toNat_lowByte, toNat_bigEndian]
  omega

/-- The default map sends the default byte of every opcode back to it (R59). -/
theorem defaultOpmap_defaultByte (op : Opcode) : defaultOpmap (defaultByte op) = op := by
  cases op <;> rfl

/-- A named opcode has one byte only (R59). -/
theorem defaultByte_defaultOpmap : ∀ b : Byte, defaultOpmap b ≠ .igl →
    defaultByte (defaultOpmap b) = b := by decide

/-- What format RI accepts: three bytes, whatever follows. -/
theorem decodeRI_ok {mk : Byte → Half → Instr} {bs r : List Byte} {i : Instr} :
    decodeRI mk bs = .ok (i, r) ↔
      ∃ d hi lo, bs = d :: hi :: lo :: r ∧ i = mk d (bigEndian hi lo) := by
  match bs with
  | [] | [_] | [_, _] => simp [decodeRI, next8, next16]
  | d :: hi :: lo :: t =>
    simp only [decodeRI, next8, next16, Except.ok.injEq, Prod.mk.injEq, List.cons.injEq]
    constructor
    · rintro ⟨rfl, rfl⟩; exact ⟨d, hi, lo, ⟨rfl, rfl, rfl, rfl⟩, rfl⟩
    · rintro ⟨_, _, _, ⟨rfl, rfl, rfl, rfl⟩, rfl⟩; exact ⟨rfl, rfl⟩

/-- What format R accepts: one byte. -/
theorem decodeR_ok {mk : Byte → Instr} {bs r : List Byte} {i : Instr} :
    decodeR mk bs = .ok (i, r) ↔ ∃ s, bs = s :: r ∧ i = mk s := by
  match bs with
  | [] => simp [decodeR, next8]
  | s :: t =>
    simp only [decodeR, next8, Except.ok.injEq, Prod.mk.injEq, List.cons.injEq]
    constructor
    · rintro ⟨rfl, rfl⟩; exact ⟨s, ⟨rfl, rfl⟩, rfl⟩
    · rintro ⟨_, ⟨rfl, rfl⟩, rfl⟩; exact ⟨rfl, rfl⟩

/-- What format RRR accepts: three bytes. -/
theorem decodeRRR_ok {mk : Byte → Byte → Byte → Instr} {bs r : List Byte} {i : Instr} :
    decodeRRR mk bs = .ok (i, r) ↔ ∃ a b d, bs = a :: b :: d :: r ∧ i = mk a b d := by
  match bs with
  | [] | [_] | [_, _] => simp [decodeRRR, next8]
  | a :: b :: d :: t =>
    simp only [decodeRRR, next8, Except.ok.injEq, Prod.mk.injEq, List.cons.injEq]
    constructor
    · rintro ⟨rfl, rfl⟩; exact ⟨a, b, d, ⟨rfl, rfl, rfl, rfl⟩, rfl⟩
    · rintro ⟨_, _, _, ⟨rfl, rfl, rfl, rfl⟩, rfl⟩; exact ⟨rfl, rfl⟩

end Sys2Proof
end

