-- ==== Sys2Proof/Laws/Memory.lean ====
section
/-! SUPPORT. The laws of the program buffer: reads after writes, and that every operation keeps the canonical form. -/

namespace Sys2Proof.Machine

theorem Memory.read_of_lt {m : Memory} {a : Nat} (h : a < m.len) :
    m.read a = some (cellAt m.cells a) := if_pos h

theorem Memory.read_of_ge {m : Memory} {a : Nat} (h : m.len ≤ a) : m.read a = none :=
  if_neg (Nat.not_lt.mpr h)

theorem Memory.read_eq_none {m : Memory} {a : Nat} : m.read a = none ↔ m.len ≤ a := by
  unfold Memory.read; split <;> simp_all

theorem Memory.lt_of_read {m : Memory} {a : Nat} {b : Byte} (h : m.read a = some b) : a < m.len := by
  by_contra hc; simp [Memory.read_of_ge (Nat.le_of_not_lt hc)] at h

theorem Memory.read_isSome {m : Memory} {a : Nat} : (m.read a).isSome = true ↔ a < m.len := by
  unfold Memory.read; split <;> simp_all

/-- A nonempty window begins with the byte at its offset. -/
theorem Memory.window_succ {m : Memory} {a : Nat} {b : Byte} (h : m.read a = some b) (n : Nat) :
    m.window a (n + 1) = b :: m.window (a + 1) n := by simp [Memory.window, h]

theorem Memory.window_nil {m : Memory} {a : Nat} (h : m.read a = none) (n : Nat) :
    m.window a n = [] := by cases n <;> simp [Memory.window, h]

/-- The bytes of a window are the buffer's (R31). -/
theorem Memory.getElem?_window (m : Memory) (a : Nat) : ∀ n k, k < n →
    (m.window a n)[k]? = m.read (a + k)
  | n + 1, k, h => by
    unfold Memory.window
    split
    · rename_i hn
      have := Memory.read_eq_none.mp hn
      simp [Memory.read_of_ge (show m.len ≤ a + k by omega)]
    · rename_i b hb
      cases k with
      | zero => simp [hb]
      | succ k =>
        rw [List.getElem?_cons_succ, Memory.getElem?_window m (a + 1) n k (by omega)]
        congr 1; omega

/-- A shorter window is the beginning of a longer one. -/
theorem Memory.take_window (m : Memory) (a : Nat) : ∀ n k, k ≤ n →
    (m.window a n).take k = m.window a k
  | _, 0, _ => by simp [Memory.window]
  | n + 1, k + 1, h => by
    unfold Memory.window
    split
    · rfl
    · simp [Memory.take_window m (a + 1) n k (by omega)]

/-- Cells in canonical form give no byte but the unlisted one below their lower bound. -/
theorem cellAt_below {hi : Nat} : ∀ {cs : List Host.Cell} {lo a : Nat},
    cellsWf lo hi cs = true → a < lo → cellAt cs a = Config.unlistedByte
  | [], _, _, _, _ => rfl
  | (k, b) :: rest, lo, a, h, ha => by
    simp only [cellsWf, Bool.and_eq_true, decide_eq_true_eq] at h
    have hk : k ≠ a := by omega
    simp [cellAt, hk, cellAt_below h.2 (show a < k + 1 by omega)]

/-- Cells in canonical form give no byte but the unlisted one from their upper bound on. -/
theorem cellAt_above {hi : Nat} : ∀ {cs : List Host.Cell} {lo a : Nat},
    cellsWf lo hi cs = true → hi ≤ a → cellAt cs a = Config.unlistedByte
  | [], _, _, _, _ => rfl
  | (k, b) :: rest, lo, a, h, ha => by
    simp only [cellsWf, Bool.and_eq_true, decide_eq_true_eq] at h
    have hk : k ≠ a := by omega
    simp [cellAt, hk, cellAt_above h.2 ha]

theorem cellsWf_mono {hi hi' : Nat} (hh : hi ≤ hi') : ∀ {cs : List Host.Cell} {lo lo' : Nat},
    lo' ≤ lo → cellsWf lo hi cs = true → cellsWf lo' hi' cs = true
  | [], _, _, _, _ => rfl
  | (k, b) :: rest, lo, lo', hl, h => by
    simp only [cellsWf, Bool.and_eq_true, decide_eq_true_eq] at h ⊢
    exact ⟨⟨⟨by omega, by omega⟩, h.1.2⟩, cellsWf_mono hh (Nat.le_refl _) h.2⟩

/-- A replaced byte reads as written, every other byte as before. -/
theorem cellAt_putCell {hi : Nat} (v : Byte) (a c : Nat) : ∀ {cs : List Host.Cell} {lo : Nat},
    cellsWf lo hi cs = true → cellAt (putCell cs a v) c = if c = a then v else cellAt cs c
  | [], _, _ => by
    unfold putCell
    by_cases hv : v = Config.unlistedByte <;> by_cases hc : c = a <;>
      simp [cellAt, hv, hc, Ne.symm]
  | (k, b) :: rest, lo, h => by
    simp only [cellsWf, Bool.and_eq_true, decide_eq_true_eq] at h
    have ih := cellAt_putCell v a c (cs := rest) h.2
    have hb := fun h' : c < k + 1 => cellAt_below h.2 h'
    unfold putCell
    split
    · simp only [cellAt, ih]
      split <;> split <;> first | rfl | omega
    · split
      · rename_i hk
        by_cases hc : c = a
        · subst hc; split
          · rename_i hv; rw [if_pos rfl, hv, hb (by omega)]
          · simp [cellAt]
        · split <;> simp [cellAt, show k ≠ c by omega, show a ≠ c by omega]
      · by_cases hc : c = a
        · subst hc; split
          · rename_i hv
            simp [cellAt, show k ≠ c by omega, hv, hb (by omega)]
          · simp [cellAt]
        · split <;> simp [cellAt, show a ≠ c by omega]

/-- Replacing a byte keeps the canonical form. -/
theorem cellsWf_putCell {hi : Nat} (v : Byte) (a : Nat) (ha : a < hi) :
    ∀ {cs : List Host.Cell} {lo : Nat}, lo ≤ a → cellsWf lo hi cs = true →
      cellsWf lo hi (putCell cs a v) = true
  | [], lo, hl, _ => by unfold putCell; split <;> simp [cellsWf, *]
  | (k, b) :: rest, lo, hl, h => by
    simp only [cellsWf, Bool.and_eq_true, decide_eq_true_eq] at h
    unfold putCell
    split
    · simp only [cellsWf, Bool.and_eq_true, decide_eq_true_eq]
      exact ⟨h.1, cellsWf_putCell v a ha (by omega) h.2⟩
    · split
      · rename_i hk
        subst hk
        split
        · exact cellsWf_mono (Nat.le_refl _) (by omega) h.2
        · rename_i hv
          simp only [cellsWf, Bool.and_eq_true, decide_eq_true_eq]
          exact ⟨⟨⟨hl, ha⟩, hv⟩, h.2⟩
      · split
        · simp only [cellsWf, Bool.and_eq_true, decide_eq_true_eq]; exact h
        · rename_i hv
          simp only [cellsWf, Bool.and_eq_true, decide_eq_true_eq]
          exact ⟨⟨⟨hl, ha⟩, hv⟩, ⟨⟨⟨by omega, h.1.1.2⟩, h.1.2⟩, h.2⟩⟩

theorem Memory.wf_put {m : Memory} (h : m.wf = true) (a : Nat) (v : Byte) : (m.put a v).wf = true :=
  cellsWf_putCell v a (Nat.lt_of_lt_of_le (Nat.lt_succ_self a) (Nat.le_max_right _ _)) (Nat.zero_le _)
    (cellsWf_mono (Nat.le_max_left _ _) (Nat.le_refl _) h)

theorem Memory.wf_putBytes : ∀ (vs : List Byte) {m : Memory} (a : Nat), m.wf = true →
    (m.putBytes a vs).wf = true
  | [], _, _, h => h
  | v :: vs, _, a, h => Memory.wf_putBytes vs (a + 1) (Memory.wf_put h a v)

/-- A put byte reads as written, every byte that was there as before. -/
theorem Memory.read_put {m : Memory} (h : m.wf = true) (a c : Nat) (v : Byte) (hc : c < m.len ∨ c = a) :
    (m.put a v).read c = if c = a then some v else m.read c := by
  have hlt : c < max m.len (a + 1) := by omega
  simp only [Memory.read, Memory.put, hlt, if_true, cellAt_putCell v a c h]
  by_cases hca : c = a
  · simp [hca]
  · have : c < m.len := by omega
    simp [hca, this]

theorem cellsWf_cellsFrom (hi : Nat) : ∀ (vs : List Byte) (k : Nat), k + vs.length ≤ hi →
    cellsWf k hi (cellsFrom k vs) = true
  | [], _, _ => rfl
  | v :: vs, k, h => by
    simp only [List.length_cons] at h
    have ih := cellsWf_cellsFrom hi vs (k + 1) (by omega)
    unfold cellsFrom
    split
    · exact cellsWf_mono (Nat.le_refl _) (Nat.le_succ k) ih
    · rename_i hv
      simp only [cellsWf, Bool.and_eq_true, decide_eq_true_eq]
      exact ⟨⟨⟨Nat.le_refl _, by omega⟩, hv⟩, ih⟩

/-- A loaded buffer is in canonical form. -/
theorem Memory.wf_ofBytes (bs : List Byte) : (Memory.ofBytes bs).wf = true :=
  cellsWf_cellsFrom _ bs 0 (Nat.le_of_eq (Nat.zero_add _))

@[simp] theorem Memory.len_ofBytes (bs : List Byte) : (Memory.ofBytes bs).len = bs.length := rfl

theorem cellAt_cellsFrom : ∀ (vs : List Byte) (k j : Nat), j < vs.length →
    some (cellAt (cellsFrom k vs) (k + j)) = vs[j]?
  | [], _, _, h => absurd h (Nat.not_lt_zero _)
  | v :: vs, k, 0, _ => by
    have hb := cellAt_below (cellsWf_cellsFrom (k + 1 + vs.length) vs (k + 1) (Nat.le_refl _))
      (Nat.lt_succ_self k)
    unfold cellsFrom
    split
    · rename_i hv; simp [hv, hb]
    · simp [cellAt]
  | v :: vs, k, j + 1, h => by
    have ih := cellAt_cellsFrom vs (k + 1) j (by simpa using h)
    have hk : k + 1 + j = k + (j + 1) := by omega
    rw [hk] at ih
    unfold cellsFrom
    split
    · simpa using ih
    · simpa [cellAt] using ih

/-- A loaded buffer reads as the bytes loaded (R118). -/
theorem Memory.read_ofBytes (bs : List Byte) (k : Nat) : (Memory.ofBytes bs).read k = bs[k]? := by
  by_cases h : k < bs.length
  · have hk := cellAt_cellsFrom bs 0 k h
    rw [Nat.zero_add] at hk
    exact (Memory.read_of_lt h).trans hk
  · rw [Memory.read_of_ge (by simpa using h)]
    exact (List.getElem?_eq_none (by omega)).symm

/-- The empty buffer is in canonical form, so the reset state's is. -/
theorem Memory.wf_empty : Memory.empty.wf = true := rfl

end Sys2Proof.Machine
end

