-- ==== Sys2Proof/Laws/Operands.lean ====
section
/-! SUPPORT. Operand forms and the `alu`, each said once. -/

namespace Sys2Proof.Machine

theorem regIndex_of_lt {b : Byte} (h : b.toNat < 32) : regIndex b = some ⟨b.toNat, h⟩ := dif_pos h

theorem regIndex_of_ge {b : Byte} (h : 32 ≤ b.toNat) : regIndex b = none :=
  dif_neg (Nat.not_lt.mpr h)

theorem sourceOperand_of_lt {s : State} {b : Byte} (h : b.toNat < 32) :
    sourceOperand s b = .ok (s.rfRead ⟨b.toNat, h⟩) := by simp [sourceOperand, regIndex_of_lt h]

theorem sourceOperand_of_ge {s : State} {b : Byte} (h : 32 ≤ b.toNat) :
    sourceOperand s b = .error .registerIndexOutOfRange := by simp [sourceOperand, regIndex_of_ge h]

theorem destOperand_of_lt {b : Byte} (h : b.toNat < 32) : destOperand b = .ok ⟨b.toNat, h⟩ := by
  simp [destOperand, regIndex_of_lt h]

theorem destOperand_of_ge {b : Byte} (h : 32 ≤ b.toNat) :
    destOperand b = .error .registerIndexOutOfRange := by simp [destOperand, regIndex_of_ge h]

theorem sourceOperand_error {s : State} {b : Byte} {c : FaultCause}
    (h : sourceOperand s b = .error c) : c = .registerIndexOutOfRange := by
  unfold sourceOperand at h; split at h <;> simp_all

theorem destOperand_error {b : Byte} {c : FaultCause} (h : destOperand b = .error c) :
    c = .registerIndexOutOfRange := by
  unfold destOperand at h; split at h <;> simp_all

/-- `s32` is injective: the pattern 0 is the only one that reads as 0. -/
theorem s32_eq_zero {v : Word} : s32 v = 0 ↔ v = 0 := by
  unfold s32; rw [← BitVec.toInt_inj]; simp

/-- The pattern of an integer, read unsigned (00_scope.md R7). -/
theorem toNat_wrap32 (n : Int) : ((wrap32 n).toNat : Int) = n % 4294967296 := by
  simp [wrap32, BitVec.toNat_ofInt]; omega

/-- The pattern of an integer that 32 signed bits can hold reads as that integer. -/
theorem s32_wrap32 {n : Int} (h₁ : -2147483648 ≤ n) (h₂ : n < 2147483648) : s32 (wrap32 n) = n := by
  rw [s32, wrap32, BitVec.toInt_ofInt]; simp [Int.bmod]; omega

theorem s32_bounds (v : Word) : -2147483648 ≤ s32 v ∧ s32 v < 2147483648 := by
  have h₁ := BitVec.le_toInt v
  have h₂ := BitVec.toInt_lt (x := v)
  simp only [Nat.reduceSub, Int.reducePow] at h₁ h₂
  exact ⟨h₁, h₂⟩

/-- ADD, SUB and MUL are those of unsigned words (R96). -/
theorem aluAdd_eq (va vb : Word) : aluAdd va vb = va + vb := by
  apply BitVec.eq_of_toInt_eq; rw [BitVec.toInt_add]; simp [aluAdd, wrap32, BitVec.toInt_ofInt]

theorem aluSub_eq (va vb : Word) : aluSub va vb = va - vb := by
  apply BitVec.eq_of_toInt_eq; rw [BitVec.toInt_sub]; simp [aluSub, wrap32, BitVec.toInt_ofInt]

theorem aluMul_eq (va vb : Word) : aluMul va vb = va * vb := by
  apply BitVec.eq_of_toInt_eq; rw [BitVec.toInt_mul]; simp [aluMul, wrap32, BitVec.toInt_ofInt]

/-- The remainder of R95 is the one of truncating division. -/
theorem divRemainder_eq (n m : Int) : divRemainder n m = n.tmod m := by
  have h := Int.tmod_add_mul_tdiv n m
  rw [Int.mul_comm] at h
  unfold divRemainder divQuotient; omega

/-- The `alu` of an operator other than DIV always answers, without a remainder (R89 to R91). -/
theorem alu_add (va vb : Word) : alu .add va vb = .ok ⟨aluAdd va vb, none⟩ := by
  simp [alu, divZero, divOvf]

theorem alu_sub (va vb : Word) : alu .sub va vb = .ok ⟨aluSub va vb, none⟩ := by
  simp [alu, divZero, divOvf]

theorem alu_mul (va vb : Word) : alu .mul va vb = .ok ⟨aluMul va vb, none⟩ := by
  simp [alu, divZero, divOvf]

/-- What the `alu` answers for DIV: one of the two fault conditions in their order, or both results. -/
theorem alu_div (va vb : Word) :
    alu .div va vb =
      if s32 vb = 0 then .error .divisionByZero
      else if s32 va = intMin ∧ s32 vb = -1 then .error .divisionOverflow
      else .ok ⟨wrap32 (divQuotient (s32 va) (s32 vb)),
        some (wrap32 (divRemainder (s32 va) (s32 vb)))⟩ := by
  simp [alu, divZero, divOvf]

end Sys2Proof.Machine
end

