-- ==== Sys2Proof/Laws/PerInstr.lean ====
section
/-! SUPPORT. One lemma per constructor of `Instr` for each family of LAWS.json. -/

namespace Sys2Proof.Laws.EncodingShape

/-- The shape of an instruction's encoding (30_encoding.md R47, R62): as long as its opcode says, and
after the opcode byte its register-index operands in stream order (R155). -/
def Statement (i : Instr) : Prop :=
  ∀ ob : Opcode → Byte, (encodeWith ob i).length = opcodeLength (opcodeOf i) ∧
    indexOperands i <+: (encodeWith ob i).tail

theorem load (d : Byte) (imm : Half) : Statement (.load d imm) := fun _ => ⟨rfl, _, rfl⟩
theorem add (a b d : Byte) : Statement (.add a b d) := fun _ => ⟨rfl, _, rfl⟩
theorem sub (a b d : Byte) : Statement (.sub a b d) := fun _ => ⟨rfl, _, rfl⟩
theorem mul (a b d : Byte) : Statement (.mul a b d) := fun _ => ⟨rfl, _, rfl⟩
theorem div (a b d : Byte) : Statement (.div a b d) := fun _ => ⟨rfl, _, rfl⟩
theorem hlt : Statement .hlt := fun _ => ⟨rfl, _, rfl⟩
theorem jmp (s : Byte) : Statement (.jmp s) := fun _ => ⟨rfl, _, rfl⟩
theorem igl (b : Byte) : Statement (.igl b) := fun _ => ⟨rfl, _, rfl⟩

end Sys2Proof.Laws.EncodingShape
end

