-- ==== Sys2Proof/Laws/State.lean ====
section
/-! SUPPORT. What each update of the state does to each field, and to a register read, so that no proof unfolds an update. -/

namespace Sys2Proof.Machine

variable (s : State)

/-- Reading a register after writing one (R13, R14: no register is special). -/
@[simp] theorem State.rfRead_rfWrite (i j : Fin 32) (v : Word) :
    (s.rfWrite i v).rfRead j = if i = j then v else s.rfRead j := by
  simp [State.rfRead, State.rfWrite, Vector.get_eq_getElem, Vector.getElem_set, Fin.ext_iff]

/-- A register read is the register field at that index. -/
theorem State.x_get (i : Fin 32) : s.x.get i = s.rfRead i := rfl

@[simp] theorem State.rfWrite_x (i : Fin 32) (v : Word) : (s.rfWrite i v).x = s.x.set i v := rfl
@[simp] theorem State.rfWrite_rem (i : Fin 32) (v : Word) : (s.rfWrite i v).rem = s.rem := rfl
@[simp] theorem State.rfWrite_pc (i : Fin 32) (v : Word) : (s.rfWrite i v).pc = s.pc := rfl
@[simp] theorem State.rfWrite_status (i : Fin 32) (v : Word) : (s.rfWrite i v).status = s.status := rfl
@[simp] theorem State.rfWrite_prog (i : Fin 32) (v : Word) : (s.rfWrite i v).prog = s.prog := rfl
@[simp] theorem State.rfWrite_diag (i : Fin 32) (v : Word) : (s.rfWrite i v).diag = s.diag := rfl
@[simp] theorem State.rfWrite_draws (i : Fin 32) (v : Word) : (s.rfWrite i v).draws = s.draws := rfl

@[simp] theorem State.rfWriteRem_x (v : Word) : (s.rfWriteRem v).x = s.x := rfl
@[simp] theorem State.rfWriteRem_rem (v : Word) : (s.rfWriteRem v).rem = v := rfl
@[simp] theorem State.rfWriteRem_pc (v : Word) : (s.rfWriteRem v).pc = s.pc := rfl
@[simp] theorem State.rfWriteRem_status (v : Word) : (s.rfWriteRem v).status = s.status := rfl
@[simp] theorem State.rfWriteRem_prog (v : Word) : (s.rfWriteRem v).prog = s.prog := rfl
@[simp] theorem State.rfWriteRem_diag (v : Word) : (s.rfWriteRem v).diag = s.diag := rfl
@[simp] theorem State.rfWriteRem_draws (v : Word) : (s.rfWriteRem v).draws = s.draws := rfl
@[simp] theorem State.rfRead_rfWriteRem (v : Word) (j : Fin 32) : (s.rfWriteRem v).rfRead j = s.rfRead j := rfl

@[simp] theorem State.pcAdvance_x (n : Nat) : (s.pcAdvance n).x = s.x := rfl
@[simp] theorem State.pcAdvance_rem (n : Nat) : (s.pcAdvance n).rem = s.rem := rfl
@[simp] theorem State.pcAdvance_pc (n : Nat) : (s.pcAdvance n).pc = s.pc + BitVec.ofNat 32 n := rfl
@[simp] theorem State.pcAdvance_status (n : Nat) : (s.pcAdvance n).status = s.status := rfl
@[simp] theorem State.pcAdvance_prog (n : Nat) : (s.pcAdvance n).prog = s.prog := rfl
@[simp] theorem State.pcAdvance_diag (n : Nat) : (s.pcAdvance n).diag = s.diag := rfl
@[simp] theorem State.pcAdvance_draws (n : Nat) : (s.pcAdvance n).draws = s.draws := rfl
@[simp] theorem State.rfRead_pcAdvance (n : Nat) (j : Fin 32) : (s.pcAdvance n).rfRead j = s.rfRead j := rfl

@[simp] theorem State.pcLoad_x (v : Word) : (s.pcLoad v).x = s.x := rfl
@[simp] theorem State.pcLoad_rem (v : Word) : (s.pcLoad v).rem = s.rem := rfl
@[simp] theorem State.pcLoad_pc (v : Word) : (s.pcLoad v).pc = v := BitVec.setWidth_eq v
@[simp] theorem State.pcLoad_status (v : Word) : (s.pcLoad v).status = s.status := rfl
@[simp] theorem State.pcLoad_prog (v : Word) : (s.pcLoad v).prog = s.prog := rfl
@[simp] theorem State.pcLoad_diag (v : Word) : (s.pcLoad v).diag = s.diag := rfl
@[simp] theorem State.pcLoad_draws (v : Word) : (s.pcLoad v).draws = s.draws := rfl
@[simp] theorem State.rfRead_pcLoad (v : Word) (j : Fin 32) : (s.pcLoad v).rfRead j = s.rfRead j := rfl

@[simp] theorem State.pcSet_x (v : PcWord) : (s.pcSet v).x = s.x := rfl
@[simp] theorem State.pcSet_rem (v : PcWord) : (s.pcSet v).rem = s.rem := rfl
@[simp] theorem State.pcSet_pc (v : PcWord) : (s.pcSet v).pc = v := rfl
@[simp] theorem State.pcSet_status (v : PcWord) : (s.pcSet v).status = s.status := rfl
@[simp] theorem State.pcSet_prog (v : PcWord) : (s.pcSet v).prog = s.prog := rfl
@[simp] theorem State.pcSet_diag (v : PcWord) : (s.pcSet v).diag = s.diag := rfl
@[simp] theorem State.pcSet_draws (v : PcWord) : (s.pcSet v).draws = s.draws := rfl
@[simp] theorem State.rfRead_pcSet (v : PcWord) (j : Fin 32) : (s.pcSet v).rfRead j = s.rfRead j := rfl

@[simp] theorem State.emit_x (e : DiagEvent) : (s.emit e).x = s.x := rfl
@[simp] theorem State.emit_rem (e : DiagEvent) : (s.emit e).rem = s.rem := rfl
@[simp] theorem State.emit_pc (e : DiagEvent) : (s.emit e).pc = s.pc := rfl
@[simp] theorem State.emit_status (e : DiagEvent) : (s.emit e).status = s.status := rfl
@[simp] theorem State.emit_prog (e : DiagEvent) : (s.emit e).prog = s.prog := rfl
@[simp] theorem State.emit_diag (e : DiagEvent) : (s.emit e).diag = s.diag ++ [e] := rfl
@[simp] theorem State.emit_draws (e : DiagEvent) : (s.emit e).draws = s.draws := rfl
@[simp] theorem State.rfRead_emit (e : DiagEvent) (j : Fin 32) : (s.emit e).rfRead j = s.rfRead j := rfl

@[simp] theorem State.stop_x (c : StopCause) : (s.stop c).x = s.x := rfl
@[simp] theorem State.stop_rem (c : StopCause) : (s.stop c).rem = s.rem := rfl
@[simp] theorem State.stop_pc (c : StopCause) : (s.stop c).pc = s.pc := rfl
@[simp] theorem State.stop_status (c : StopCause) : (s.stop c).status = .halted c := rfl
@[simp] theorem State.stop_prog (c : StopCause) : (s.stop c).prog = s.prog := rfl
@[simp] theorem State.stop_diag (c : StopCause) : (s.stop c).diag = s.diag := rfl
@[simp] theorem State.stop_draws (c : StopCause) : (s.stop c).draws = s.draws := rfl
@[simp] theorem State.rfRead_stop (c : StopCause) (j : Fin 32) : (s.stop c).rfRead j = s.rfRead j := rfl

@[simp] theorem State.raiseFault_x (c : FaultCause) : (s.raiseFault c).x = Config.faultRegs s.faultSite := rfl
@[simp] theorem State.raiseFault_rem (c : FaultCause) : (s.raiseFault c).rem = Config.faultRem s.faultSite := rfl
@[simp] theorem State.raiseFault_pc (c : FaultCause) : (s.raiseFault c).pc = Config.faultPc s.faultSite := rfl
@[simp] theorem State.raiseFault_status (c : FaultCause) : (s.raiseFault c).status = .faulted c := rfl
@[simp] theorem State.raiseFault_prog (c : FaultCause) : (s.raiseFault c).prog = s.prog := rfl
@[simp] theorem State.raiseFault_diag (c : FaultCause) : (s.raiseFault c).diag = s.diag := rfl
@[simp] theorem State.raiseFault_draws (c : FaultCause) : (s.raiseFault c).draws = s.draws + 1 := rfl

/-- The writes of an arithmetic instruction without a remainder. -/
@[simp] theorem State.writeResult_none (i : Fin 32) (v : Word) :
    s.writeResult i ⟨v, none⟩ = s.rfWrite i v := rfl

/-- The writes of an arithmetic instruction with a remainder. -/
@[simp] theorem State.writeResult_some (i : Fin 32) (v r : Word) :
    s.writeResult i ⟨v, some r⟩ = (s.rfWrite i v).rfWriteRem r := rfl

/-- Two states with equal fields are equal. -/
theorem State.ext_fields {s t : State} (hx : ∀ i, s.rfRead i = t.rfRead i) (hr : s.rem = t.rem)
    (hp : s.pc = t.pc) (hs : s.status = t.status) (hm : s.prog = t.prog) (hd : s.diag = t.diag)
    (hw : s.draws = t.draws) : s = t := by
  cases s; cases t
  simp only [State.rfRead, Vector.get_eq_getElem] at *
  subst hr hp hs hm hd hw
  congr 1
  exact Vector.ext fun i hi => hx ⟨i, hi⟩

end Sys2Proof.Machine
end

