-- ==== Sys2Proof/Laws/Step.lean ====
section
/-! SUPPORT. What a meaning, the decoder and a step can do, said once each; invariants are derived from these. -/

namespace Sys2Proof.Machine

/-- Everything `execBinop` can do. -/
theorem execBinop_cases (op : AluOp) (a b d : Byte) (s : State) :
    (∃ c, (c = .registerIndexOutOfRange ∨ ∃ va vb, alu op va vb = .error c) ∧
        execBinop op a b d s = .next (s.raiseFault c)) ∨
      ∃ va vb i out, sourceOperand s a = .ok va ∧ sourceOperand s b = .ok vb ∧
        destOperand d = .ok i ∧ alu op va vb = .ok out ∧
        execBinop op a b d s = .next ((s.writeResult i out).pcAdvance 4) := by
  unfold execBinop
  split
  · rename_i c h; exact .inl ⟨c, .inl (sourceOperand_error h), rfl⟩
  · rename_i va ha
    split
    · rename_i c h; exact .inl ⟨c, .inl (sourceOperand_error h), rfl⟩
    · rename_i vb hb
      split
      · rename_i c h; exact .inl ⟨c, .inl (destOperand_error h), rfl⟩
      · rename_i i hi
        split
        · rename_i c h; exact .inl ⟨c, .inr ⟨va, vb, h⟩, rfl⟩
        · rename_i out h; exact .inr ⟨va, vb, i, out, ha, hb, hi, h, rfl⟩

/-- Everything the `alu` can refuse: only DIV, for its two conditions. -/
theorem alu_error {op : AluOp} {va vb : Word} {c : FaultCause} (h : alu op va vb = .error c) :
    op = .div ∧ (c = .divisionByZero ∨ c = .divisionOverflow) := by
  cases op
  · rw [alu_add] at h; cases h
  · rw [alu_sub] at h; cases h
  · rw [alu_mul] at h; cases h
  · rw [alu_div] at h
    refine ⟨rfl, ?_⟩
    split at h
    · cases h; exact .inl rfl
    · split at h
      · cases h; exact .inr rfl
      · cases h

/-- Everything an instruction can do: enter a fault (HLT and IGL cannot, R128), write one register, write one register and the
remainder, jump, or halt with its event. -/
theorem exec_cases (i : Instr) (s : State) :
    (∃ c, (opcodeOf i ≠ .hlt ∧ opcodeOf i ≠ .igl) ∧
        (c = .registerIndexOutOfRange ∨
          opcodeOf i = .div ∧ (c = .divisionByZero ∨ c = .divisionOverflow)) ∧
        exec i s = .next (s.raiseFault c)) ∨
      (∃ r v, (opcodeOf i = .load ∨ opcodeOf i = .add ∨ opcodeOf i = .sub ∨ opcodeOf i = .mul) ∧
        exec i s = .next ((s.rfWrite r v).pcAdvance 4)) ∨
      (∃ r v w, opcodeOf i = .div ∧ exec i s = .next (((s.rfWrite r v).rfWriteRem w).pcAdvance 4)) ∨
      (∃ v, opcodeOf i = .jmp ∧ exec i s = .next (s.pcLoad v)) ∨
      (opcodeOf i = .hlt ∧ exec i s = .next (((s.pcAdvance 1).emit .hlt).stop .hltInstruction)) ∨
      (opcodeOf i = .igl ∧
        exec i s = .next (((s.pcAdvance 1).emit .illegal).stop .illegalOpcode)) := by
  cases i with
  | load d imm =>
    simp only [exec, execLoad]
    split
    · rename_i c h; exact .inl ⟨c, ⟨nofun, nofun⟩, .inl (destOperand_error h), rfl⟩
    · exact .inr (.inl ⟨_, _, .inl rfl, rfl⟩)
  | jmp r =>
    simp only [exec, execJmp]
    split
    · rename_i c h; exact .inl ⟨c, ⟨nofun, nofun⟩, .inl (sourceOperand_error h), rfl⟩
    · exact .inr (.inr (.inr (.inl ⟨_, rfl, rfl⟩)))
  | hlt => exact .inr (.inr (.inr (.inr (.inl ⟨rfl, rfl⟩))))
  | igl b => exact .inr (.inr (.inr (.inr (.inr ⟨rfl, rfl⟩))))
  | add a b d =>
    simp only [exec, execAdd]
    obtain ⟨c, hc, h⟩ | ⟨va, vb, r, out, -, -, -, ho, h⟩ := execBinop_cases .add a b d s
    · refine .inl ⟨c, ⟨nofun, nofun⟩, hc.imp id ?_, h⟩
      rintro ⟨_, _, he⟩; exact absurd (alu_error he).1 (by decide)
    · rw [alu_add] at ho; cases ho
      exact .inr (.inl ⟨r, _, .inr (.inl rfl), by simpa using h⟩)
  | sub a b d =>
    simp only [exec, execSub]
    obtain ⟨c, hc, h⟩ | ⟨va, vb, r, out, -, -, -, ho, h⟩ := execBinop_cases .sub a b d s
    · refine .inl ⟨c, ⟨nofun, nofun⟩, hc.imp id ?_, h⟩
      rintro ⟨_, _, he⟩; exact absurd (alu_error he).1 (by decide)
    · rw [alu_sub] at ho; cases ho
      exact .inr (.inl ⟨r, _, .inr (.inr (.inl rfl)), by simpa using h⟩)
  | mul a b d =>
    simp only [exec, execMul]
    obtain ⟨c, hc, h⟩ | ⟨va, vb, r, out, -, -, -, ho, h⟩ := execBinop_cases .mul a b d s
    · refine .inl ⟨c, ⟨nofun, nofun⟩, hc.imp id ?_, h⟩
      rintro ⟨_, _, he⟩; exact absurd (alu_error he).1 (by decide)
    · rw [alu_mul] at ho; cases ho
      exact .inr (.inl ⟨r, _, .inr (.inr (.inr rfl)), by simpa using h⟩)
  | div a b d =>
    simp only [exec, execDiv]
    obtain ⟨c, hc, h⟩ | ⟨va, vb, r, out, -, -, -, ho, h⟩ := execBinop_cases .div a b d s
    · refine .inl ⟨c, ⟨nofun, nofun⟩, hc.imp id ?_, h⟩
      rintro ⟨_, _, he⟩; exact ⟨rfl, (alu_error he).2⟩
    · rw [alu_div] at ho
      split at ho
      · cases ho
      · split at ho
        · cases ho
        · cases ho
          exact .inr (.inr (.inl ⟨r, _, _, rfl, by simpa using h⟩))

/-- What the operands of an opcode decode to is an instruction of that opcode. -/
theorem opcodeOf_decodeOperands {op : Opcode} {byte : Byte} {bs r : List Byte} {i : Instr}
    (h : decodeOperands op byte bs = .ok (i, r)) : opcodeOf i = op := by
  cases op <;> simp only [decodeOperands, decodeRI, decodeR, decodeRRR] at h
  all_goals
    repeat' split at h
    all_goals first | (cases h; done) | (cases h; rfl)

/-- A decoded instruction is of the opcode the map gives its first byte (R48, R72). -/
theorem opcodeOf_decodeWith {om : OpMap} {b : Byte} {bs r : List Byte} {i : Instr}
    (h : decodeWith om (b :: bs) = .ok (i, r)) : opcodeOf i = om b :=
  opcodeOf_decodeOperands h

/-- A step of the running machine at a byte of the buffer: decoding from that byte on, then executing or
entering the fault of an instruction cut short. -/
theorem step_at {s : State} {b : Byte} (hs : s.status = .running)
    (hb : s.prog.read s.pc.toNat = some b) :
    step s = match decodeOperands (defaultOpmap b) b (s.prog.window (s.pc.toNat + 1) 3) with
      | .error e => .next (s.raiseFault (fetchFault e))
      | .ok (i, _) => exec i s := by
  have hp : ¬ s.prog.len ≤ s.pc.toNat := Nat.not_le.mpr (Memory.lt_of_read hb)
  have hw : s.fetchWindow = b :: s.prog.window (s.pc.toNat + 1) 3 := Memory.window_succ hb 3
  simp only [step, stepWith, hs, State.atEnd, hp, decide_false, Bool.false_eq_true, if_false, hw]
  rfl

/-- Everything a step can do (R68). -/
theorem stepWith_cases (om : OpMap) (s : State) :
    (s.status ≠ .running ∧ stepWith om s = .next s) ∨
      (s.status = .running ∧ s.prog.len ≤ s.pc.toNat ∧
        stepWith om s = .next (s.stop .endOfProgram)) ∨
      (∃ e, s.status = .running ∧ s.pc.toNat < s.prog.len ∧
        decodeWith om s.fetchWindow = .error e ∧
        stepWith om s = .next (s.raiseFault (fetchFault e))) ∨
      ∃ b i r, s.status = .running ∧ s.pc.toNat < s.prog.len ∧ s.prog.read s.pc.toNat = some b ∧
        decodeWith om s.fetchWindow = .ok (i, r) ∧ opcodeOf i = om b ∧
        stepWith om s = exec i s := by
  unfold stepWith State.atEnd
  cases hs : s.status with
  | halted c => exact .inl ⟨by simp, rfl⟩
  | faulted c => exact .inl ⟨by simp, rfl⟩
  | running =>
    refine .inr ?_
    by_cases hp : s.prog.len ≤ s.pc.toNat
    · exact .inl ⟨rfl, hp, by simp [hp]⟩
    · have hlt : s.pc.toNat < s.prog.len := Nat.lt_of_not_le hp
      refine .inr ?_
      cases hd : decodeWith om s.fetchWindow with
      | error e => exact .inl ⟨e, rfl, hlt, rfl, by simp [hp]⟩
      | ok ir =>
        obtain ⟨i, r⟩ := ir
        obtain ⟨b, hb⟩ := Option.isSome_iff_exists.mp (Memory.read_isSome.mpr hlt)
        refine .inr ⟨b, i, r, rfl, hlt, hb, rfl, ?_, by simp [hp]⟩
        unfold State.fetchWindow at hd
        rw [Memory.window_succ hb] at hd
        exact opcodeOf_decodeWith hd

end Sys2Proof.Machine
end

