-- ==== Sys2Proof/Tests/Slice0.lean ====
section
/-! SUPPORT. Tests: expected results are those of 95_test_vectors.md (the vector is named in each comment) or of the rule named.
Then the witnesses: states and operands that meet the hypotheses of each statement, clause by clause. -/

namespace Sys2Proof.Tests

open Sys2Proof Sys2Proof.Machine

/-- The reset machine with a buffer, some registers and a counter set by the host. -/
def launch (bytes : List Byte) (regs : List (Fin 32 × Word)) (pc : PcWord) : State :=
  regs.foldl (fun s r => s.rfWrite r.1 r.2)
    { State.reset with prog := Memory.ofBytes bytes, pc := pc }

/-- A reading of the next state, if there is one. -/
def after {α : Type} (o : Out) (f : State → α) : Option α :=
  match o with
  | .next t => some (f t)
  | .fault _ => none
  | .refused _ => none

/-! ## Well-formedness: an ill-formed term for each check -/

theorem test_igl_of_mapped_byte_is_ill_formed : wellFormed (.igl 0x06) = false := by decide
theorem test_igl_of_unmapped_byte_is_well_formed : wellFormed (.igl 0x07) = true := by decide
theorem test_index_32_is_out_of_range : indicesInRange (.add 0 32 1) = false := by decide
theorem test_index_31_is_in_range : indicesInRange (.load 31 0) = true := by decide

/-! ## Decoding: words written out from R47 and R59 -/

/-- L1: `LOAD r0, 500`. -/
theorem test_decode_load : decode [0x00, 0x00, 0x01, 0xF4] = .ok (.load 0 500, []) := by decide
theorem test_decode_add : decode [0x01, 0x00, 0x01, 0x02] = .ok (.add 0 1 2, []) := by decide
theorem test_decode_sub : decode [0x02, 0x03, 0x1F, 0x04] = .ok (.sub 3 31 4, []) := by decide
theorem test_decode_mul : decode [0x03, 0x00, 0x01, 0x02] = .ok (.mul 0 1 2, []) := by decide
theorem test_decode_div : decode [0x04, 0x00, 0x01, 0x02, 0x05] = .ok (.div 0 1 2, [0x05]) := by
  decide
theorem test_decode_hlt : decode [0x05, 0x00] = .ok (.hlt, [0x00]) := by decide
theorem test_decode_jmp : decode [0x06, 0x05] = .ok (.jmp 5, []) := by decide
/-- H5 and H4: the first and the last unmapped byte. -/
theorem test_decode_igl : decode [0x07] = .ok (.igl 0x07, []) ∧
    decode [0xFF] = .ok (.igl 0xFF, []) := by decide
/-- L6: the index is checked before the cut-short immediate is fetched. -/
theorem test_decode_cut_after_bad_index :
    decode [0x00, 0x20, 0x00] = .error .registerIndexOutOfRange := by decide
/-- L8 and L7. -/
theorem test_decode_cut_short : decode [0x00, 0x00, 0x01] = .error .fetchOutOfBounds ∧
    decode [0x00] = .error .fetchOutOfBounds := by decide
/-- E1 to E4. -/
theorem test_next16 : next16 [0x01, 0xF4] = some (500, []) ∧
    next16 [0xF4, 0x01] = some (62465, []) ∧ next16 [0xFF, 0xFF] = some (65535, []) ∧
    next16 [0x80, 0x00] = some (32768, []) ∧ next16 [0x01] = none := by decide
theorem test_encode_load : encode (.load 3 0xABCD) = [0x00, 0x03, 0xAB, 0xCD] := by decide
theorem test_encode_div : encode (.div 0 1 2) = [0x04, 0x00, 0x01, 0x02] := by decide

/-- The bits of a table row, bit 0 the least significant bit of the first byte. -/
theorem test_decodeTableWord : decodeTableWord 32 0xCDAB0300 = some (.load 3 0xABCD) ∧
    decodeTableWord 8 0x05 = some .hlt ∧ decodeTableWord 8 0x80 = some (.igl 0x80) := by decide

/-- A placed word is the next step's instruction. -/
theorem test_withFetchWord :
    after (step (State.reset.withFetchWord 32 0xF4010000)) (fun t => (t.rfRead 0, t.pc)) =
      some (500, 4) := by decide

/-! ## One step of each instruction -/

/-- L2: the greatest immediate is 65535, not -1. -/
theorem test_load : after (step (launch [0x00, 0x1F, 0xFF, 0xFF] [] 0))
    (fun t => (t.rfRead 31, t.pc, t.status)) = some (65535, 4, .running) := by decide
/-- L5. -/
theorem test_load_bad_index : after (step (launch [0x00, 0x20, 0x00, 0x01] [] 0))
    (fun t => (t.status, t.diag)) = some (.faulted .registerIndexOutOfRange, []) := by decide
/-- A3. -/
theorem test_add : after (step (launch [0x01, 0x00, 0x01, 0x02] [(0, 2147483647), (1, 1)] 0))
    (fun t => (t.rfRead 2, t.rem, t.pc)) = some (0x80000000, 0, 4) := by decide
/-- A6: a register as both sources and destination. -/
theorem test_add_same : after (step (launch [0x01, 0x01, 0x01, 0x01] [(1, 21)] 0))
    (fun t => t.rfRead 1) = some 42 := by decide
/-- B2. -/
theorem test_sub : after (step (launch [0x02, 0x00, 0x01, 0x02] [(0, 0), (1, 1)] 0))
    (fun t => t.rfRead 2) = some 0xFFFFFFFF := by decide
/-- X3. -/
theorem test_sub_bad_index : after (step (launch [0x02, 0x28, 0x01, 0x02] [] 0))
    (fun t => t.status) = some (.faulted .registerIndexOutOfRange) := by decide
/-- M2. -/
theorem test_mul : after (step (launch [0x03, 0x00, 0x01, 0x02] [(0, 65535), (1, 65535)] 0))
    (fun t => t.rfRead 2) = some 0xFFFE0001 := by decide
/-- M4. -/
theorem test_mul_intMin :
    after (step (launch [0x03, 0x00, 0x01, 0x02] [(0, 0x80000000), (1, 0xFFFFFFFF)] 0))
      (fun t => t.rfRead 2) = some 0x80000000 := by decide
/-- V2: -7 / 2. -/
theorem test_div : after (step (launch [0x04, 0x00, 0x01, 0x02] [(0, 0xFFFFFFF9), (1, 2)] 0))
    (fun t => (t.rfRead 2, t.rem, t.pc)) = some (0xFFFFFFFD, 0xFFFFFFFF, 4) := by decide
/-- V16: `INT_MIN / -1`. -/
theorem test_div_overflow :
    after (step (launch [0x04, 0x00, 0x01, 0x02] [(0, 0x80000000), (1, 0xFFFFFFFF)] 0))
      (fun t => t.status) = some (.faulted .divisionOverflow) := by decide
/-- H2. -/
theorem test_hlt : after (step (launch [0x05, 0x00, 0x00, 0x00, 0x07] [] 0))
    (fun t => (t.pc, t.rfRead 0, t.status, t.diag)) =
      some (1, 0, .halted .hltInstruction, [.hlt]) := by decide
/-- J1. -/
theorem test_jmp : after (step (launch [0x06, 0x05, 0, 0, 0, 0, 0, 0] [(5, 7)] 0))
    (fun t => (t.pc, t.rfRead 5, t.status)) = some (7, 7, .running) := by decide
/-- J7: the operand byte is missing. -/
theorem test_jmp_cut_short : after (step (launch [0x06] [] 0)) (fun t => t.status) =
    some (.faulted .fetchOutOfBounds) := by decide
/-- H4. -/
theorem test_igl : after (step (launch [0xFF] [] 0))
    (fun t => (t.pc, t.status, t.diag)) =
      some (1, .halted .illegalOpcode, [.illegal]) := by decide

/-! ## Host operations -/

/-- H9: after HLT, `HostSetPC(0)` makes the machine run again and keeps the trace. -/
theorem test_hostSetPC :
    after (hostSetPC 0 { launch [0x05] [] 1 with status := .halted .hltInstruction, diag := [.hlt] })
      (fun t => (t.pc, t.status, t.diag)) = some (0, .running, [.hlt]) := by decide
/-- R118: a load leaves `Faulted` as it is. -/
theorem test_hostLoadProgram_faulted :
    after (hostLoadProgram [0x05] { launch [] [] 0 with status := .faulted .divisionByZero })
      (fun t => (t.status, t.prog.read 0, t.prog.read 1)) =
        some (.faulted .divisionByZero, some 0x05, none) := by decide
/-- R122: a reset leaves `Faulted`. -/
theorem test_hostReset :
    after (hostReset (some [0x05]) { launch [] [(1, 9)] 3 with status := .faulted .divisionByZero })
      (fun t => (t.status, t.rfRead 1, t.pc, t.prog.len)) = some (.running, 0, 0, 1) := by decide

/-! ## Witnesses -/

/-- The default map and bytes meet the hypothesis of `DecodeOfEncode`. -/
theorem witness_DecodeOfEncode :
    defaultOpmap (defaultByte .load) = .load ∧ defaultOpmap (defaultByte .jmp) = .jmp ∧
      defaultOpmap (defaultByte .add) = .add ∧ defaultOpmap (defaultByte .sub) = .sub ∧
      defaultOpmap (defaultByte .mul) = .mul ∧ defaultOpmap (defaultByte .div) = .div ∧
      defaultOpmap (defaultByte .hlt) = .hlt ∧ wellFormedFor defaultOpmap (.igl 0xFF) = true ∧
      wellFormed (.add 255 0 31) = true := by decide
theorem witness_EncodeOfDecode : decode [0x00, 0xFF, 0x80, 0x01, 0x09] =
    .ok (.load 255 0x8001, [0x09]) := by decide
theorem witness_EveryOpcodeByteHasItsArm : 3 ≤ ([0, 1, 2] : List Byte).length := by decide
theorem witness_LengthFromOpcodeAlone :
    decodeWith defaultOpmap [0x06, 0x20, 0x05] = .ok (.jmp 0x20, [0x05]) := by decide
theorem witness_LongerPrefetchDecodesAlike : 4 ≤ 4 ∧
    (Memory.ofBytes [0x05, 0x05]).window 0 4 = [0x05, 0x05] := by decide
theorem witness_StepRunsDecodedInstruction :
    (launch [0x06, 0x05] [] 0).status = .running ∧
      (launch [0x06, 0x05] [] 0).pc.toNat < (launch [0x06, 0x05] [] 0).prog.len ∧
      decode (launch [0x06, 0x05] [] 0).fetchWindow = .ok (.jmp 5, []) ∧
      (launch [0x06, 0x05] [] 0).fetchWindow[3]? = none := by decide
theorem witness_StepRunsEncodedInstruction :
    wellFormed (.sub 1 2 3) = true ∧ (launch (encode (.sub 1 2 3)) [] 0).status = .running ∧
      ∀ k, k < (encode (.sub 1 2 3)).length →
        (launch (encode (.sub 1 2 3)) [] 0).prog.read (0 + k) = (encode (.sub 1 2 3))[k]? := by
  decide
theorem witness_StoppedMachineStaysAsItIs :
    { launch [0x05] [] 0 with status := .halted .endOfProgram }.status ≠ .running := by decide
/-- The least counter at which the program has ended: `LEN`; the empty program too. -/
theorem witness_EndOfProgramStops :
    (launch [0x05] [] 1).status = .running ∧
      (launch [0x05] [] 1).prog.len ≤ (launch [0x05] [] 1).pc.toNat ∧
      (launch [] [] 0).prog.len ≤ (launch [] [] 0).pc.toNat := by decide

/-- The hypotheses of the statements about a step at an opcode byte, as one test. -/
def runsAt (s : State) (b : Byte) : Bool :=
  decide (s.status = .running) && decide (s.prog.len ≤ Config.maxLen) &&
    decide (s.prog.read s.pc.toNat = some b)

/-- LOAD: the `d` byte missing; index 32; index 31 and the immediate one byte short; whole. -/
theorem witness_LoadStep :
    (runsAt (launch [0x00] [] 0) 0x00 = true ∧ (launch [0x00] [] 0).prog.read 1 = none) ∧
    (runsAt (launch [0x00, 0x20] [] 0) 0x00 = true ∧
      (launch [0x00, 0x20] [] 0).prog.read 1 = some 0x20) ∧
    (runsAt (launch [0x00, 0x1F, 0x01] [] 0) 0x00 = true ∧
      (launch [0x00, 0x1F, 0x01] [] 0).prog.read 1 = some 0x1F ∧
      (launch [0x00, 0x1F, 0x01] [] 0).prog.len < 0 + 4) ∧
    (runsAt (launch [0x00, 0x1F, 0x01, 0xF4] [] 0) 0x00 = true ∧
      (launch [0x00, 0x1F, 0x01, 0xF4] [] 0).prog.read 2 = some 0x01 ∧
      (launch [0x00, 0x1F, 0x01, 0xF4] [] 0).prog.read 3 = some 0xF4) := by decide
/-- JMP: the operand missing; index 32; a zero register; the negative register -1. -/
theorem witness_JmpStep :
    (runsAt (launch [0x06] [] 0) 0x06 = true ∧ (launch [0x06] [] 0).prog.read 1 = none) ∧
    (runsAt (launch [0x06, 0x20] [] 0) 0x06 = true ∧
      (launch [0x06, 0x20] [] 0).prog.read 1 = some 0x20) ∧
    (runsAt (launch [0x06, 0x1F] [] 0) 0x06 = true ∧
      0 ≤ ((launch [0x06, 0x1F] [] 0).rfRead 31).toInt) ∧
    (runsAt (launch [0x06, 0x1F] [(31, 0xFFFFFFFF)] 0) 0x06 = true ∧
      ((launch [0x06, 0x1F] [(31, 0xFFFFFFFF)] 0).rfRead 31).toInt < 0) := by decide
/-- The three-register instructions, for each opcode byte: `a` missing; `a` = 32; `b` missing; `b` = 32;
`d` missing; `d` = 32; whole, with index 31. -/
theorem witness_BinopStep : ∀ opc ∈ ([0x01, 0x02, 0x03, 0x04] : List Byte),
    (runsAt (launch [opc] [] 0) opc = true ∧ (launch [opc] [] 0).prog.read 1 = none) ∧
    (runsAt (launch [opc, 0x20] [] 0) opc = true ∧
      (launch [opc, 0x20] [] 0).prog.read 1 = some 0x20) ∧
    (runsAt (launch [opc, 0x1F] [] 0) opc = true ∧ (launch [opc, 0x1F] [] 0).prog.read 2 = none) ∧
    (runsAt (launch [opc, 0x1F, 0x20] [] 0) opc = true ∧
      (launch [opc, 0x1F, 0x20] [] 0).prog.read 2 = some 0x20) ∧
    (runsAt (launch [opc, 0x1F, 0x1F] [] 0) opc = true ∧
      (launch [opc, 0x1F, 0x1F] [] 0).prog.read 3 = none) ∧
    (runsAt (launch [opc, 0x1F, 0x1F, 0x20] [] 0) opc = true ∧
      (launch [opc, 0x1F, 0x1F, 0x20] [] 0).prog.read 3 = some 0x20) ∧
    (runsAt (launch [opc, 0x1F, 0x1F, 0x1F] [] 0) opc = true ∧
      (launch [opc, 0x1F, 0x1F, 0x1F] [] 0).prog.read 3 = some 0x1F) := by decide
/-- DIV's three cases: divisor 0; `INT_MIN` and -1; the neighbours `INT_MIN / 1` and `INT_MAX / -1`. -/
theorem witness_DivEffect :
    (0 : Word).toInt = 0 ∧ (0x80000000 : Word).toInt = -2147483648 ∧
      (0xFFFFFFFF : Word).toInt = -1 ∧ (1 : Word).toInt ≠ 0 ∧
      ¬((0x80000000 : Word).toInt = -2147483648 ∧ (1 : Word).toInt = -1) ∧
      ¬((0x7FFFFFFF : Word).toInt = -2147483648 ∧ (0xFFFFFFFF : Word).toInt = -1) := by decide
theorem witness_HltStep : runsAt (launch [0x05] [] 0) 0x05 = true := by decide
theorem witness_IglStep : runsAt (launch [0x07] [] 0) 0x07 = true ∧ 7 ≤ (0x07 : Byte).toNat ∧
    runsAt (launch [0xFF] [] 0) 0xFF = true := by decide
/-- The greatest index that names a register and the values of the completion statements. -/
theorem witness_Completions :
    (31 : Byte).toNat < 32 ∧
      ((launch [] [(31, 1)] 0).rfRead 31).toInt ≠ 0 ∧
      ¬(((launch [] [(31, 1)] 0).rfRead 30).toInt = -2147483648 ∧
        ((launch [] [(31, 1)] 0).rfRead 31).toInt = -1) ∧
      0 ≤ ((launch [] [(31, 1)] 0).rfRead 31).toInt ∧
      ((launch [] [(31, 0x80000000)] 0).rfRead 31).toInt < 0 := by decide
theorem witness_AddSubMulComplete : (Instr.mul 0 1 2, (6 : Word)) ∈
    [(Instr.add 0 1 2, (5 : Word)), (Instr.sub 0 1 2, 1), (Instr.mul 0 1 2, 6)] := by decide
theorem witness_HltAndIglComplete :
    (Instr.igl 0x09, StopCause.illegalOpcode, DiagEvent.illegal) ∈
      [(Instr.hlt, StopCause.hltInstruction, DiagEvent.hlt),
        (Instr.igl 0x09, StopCause.illegalOpcode, DiagEvent.illegal)] := by decide
/-- V20: the index comes before the zero divisor. -/
theorem witness_BadIndexFaults :
    (∃ b ∈ indexOperands (.div 40 1 2), 32 ≤ b.toNat) ∧
      after (exec (.div 40 1 2) State.reset) (fun t => t.status) =
        some (.faulted .registerIndexOutOfRange) := by decide
theorem witness_DivisionFaults :
    ((launch [] [(0, 5)] 0).rfRead 1).toInt = 0 ∧
      ((launch [] [(0, 0x80000000), (1, 0xFFFFFFFF)] 0).rfRead 0).toInt = -2147483648 ∧
      ((launch [] [(0, 0x80000000), (1, 0xFFFFFFFF)] 0).rfRead 1).toInt = -1 := by decide
/-- V19: -9 / -9. -/
theorem witness_SameRegisterOperands :
    (0xFFFFFFF7 : Word) = (launch [] [(4, 0xFFFFFFF7)] 0).rfRead 4 ∧ (0xFFFFFFF7 : Word) ≠ 0 := by
  decide

/-- The invariant holds of a running machine with a buffer, and of it a step answers. -/
theorem witness_StepKeepsInvariant : Inv defaultOpmap (launch [0x05] [] 0) ∧
    ∃ t, step (launch [0x05] [] 0) = .next t := ⟨⟨rfl, by decide, trivial⟩, _, rfl⟩
/-- It holds of halted machines, where its last clause says something. -/
theorem witness_InvHalted :
    Inv defaultOpmap
        { launch [0x05] [] 1 with status := .halted .hltInstruction, diag := [.hlt] } ∧
      Inv defaultOpmap
        { launch [0x07] [] 1 with status := .halted .illegalOpcode, diag := [.illegal] } ∧
      Inv defaultOpmap { launch [0x07] [] 1 with status := .halted .endOfProgram } :=
  ⟨⟨rfl, by decide, by decide, by decide, by decide⟩,
    ⟨rfl, by decide, by decide, by decide, by decide⟩, ⟨rfl, by decide, Nat.le_refl 1⟩⟩
/-- It fails of a machine that halted for no reason. -/
theorem test_inv_refuses_unsound_halt :
    ¬ Inv defaultOpmap { launch [0x05] [] 0 with status := .halted .hltInstruction } :=
  fun h => h.haltSound.1 rfl
theorem witness_HostKeepsInvariant :
    ∃ t, hostDo (.loadProgram [0x05]) State.reset = .next t := ⟨_, rfl⟩
/-- A reachable machine that has executed an instruction. -/
theorem witness_Reachable :
    ∃ s, Reachable s ∧ s.status = .halted .hltInstruction := by
  have h₁ : Reachable { State.reset with prog := Memory.ofBytes [0x05] } :=
    .host (.loadProgram [0x05]) .reset rfl
  exact ⟨_, .step h₁ rfl, rfl⟩
/-- A DIV changes `rem` and does not fault, as `RemainderOnlyByDiv` supposes. -/
theorem witness_RemainderOnlyByDiv :
    after (step (launch [0x04, 0x00, 0x01, 0x02] [(0, 7), (1, 2)] 0))
      (fun t => (t.rem, t.status)) = some (1, .running) := by decide
/-- A step that writes a register, one that emits an event and one that goes on. -/
theorem witness_StepClauses :
    (∃ t, stepWith defaultOpmap (launch [0x05] [] 0) = .next t) ∧
      (∃ t, stepWith defaultOpmap (launch [0x00, 0x01, 0x00, 0x02] [] 0) = .next t) ∧
      (∃ t, step (launch [] [] 0) = .next t) := ⟨⟨_, rfl⟩, ⟨_, rfl⟩, ⟨_, rfl⟩⟩
/-- Each way out of `Running`: the end, HLT, an illegal byte, going on, a fault. -/
theorem witness_TransitionsFromRunning :
    after (step (launch [0x05] [] 1)) (fun t => t.status) = some (.halted .endOfProgram) ∧
      after (step (launch [0x05] [] 0)) (fun t => t.status) = some (.halted .hltInstruction) ∧
      after (step (launch [0x07] [] 0)) (fun t => t.status) = some (.halted .illegalOpcode) ∧
      after (step (launch [0x06, 0x1F] [] 0)) (fun t => t.status) = some .running ∧
      after (step (launch [0x06, 0x20] [] 0)) (fun t => t.status) =
        some (.faulted .registerIndexOutOfRange) := by decide
/-- A step that writes one register and does not fault, as `RegistersWrittenByFive` supposes. -/
theorem witness_RegistersWrittenByFive :
    after (step (launch [0x00, 0x01, 0x00, 0x02] [] 0))
      (fun t => (t.rfRead 0, t.rfRead 1, t.status)) = some (0, 2, .running) := by decide
theorem witness_PcMovesByRule :
    runsAt (launch [0x06, 0x01, 0x05] [(1, 2)] 0) 0x06 = true ∧
      after (step (launch [0x06, 0x01, 0x05] [(1, 2)] 0)) (fun t => (t.status, t.pc)) =
        some (.running, 2) ∧
      runsAt (launch [0x00, 0x01, 0x05, 0x00] [] 0) 0x00 = true ∧
      after (step (launch [0x00, 0x01, 0x05, 0x00] [] 0)) (fun t => (t.status, t.pc)) =
        some (.running, 4) := by decide
/-- J3 and J4: a target of exactly `LEN`, and a negative one. -/
theorem witness_JumpPastEndEndsRun :
    runsAt (launch [0x06, 0x05] [(5, 2)] 0) 0x06 = true ∧
      ((launch [0x06, 0x05] [(5, 2)] 0).prog.len : Int) ≤
        ((launch [0x06, 0x05] [(5, 2)] 0).rfRead 5).toInt ∧
      ((launch [0x06, 0x02] [(2, 0xFFFFFFFF)] 0).rfRead 2).toInt < 0 := by decide
/-- J2. -/
theorem witness_JumpToSelfLoops :
    (launch [0x06, 0x00] [] 0).status = .running ∧
      (launch [0x06, 0x00] [] 0).prog.read 0 = some 0x06 ∧
      (launch [0x06, 0x00] [] 0).prog.read 1 = some 0x00 ∧
      (launch [0x06, 0x00] [] 0).rfRead 0 = (launch [0x06, 0x00] [] 0).pc := by decide
/-- The two lengths on either side of `MAXLEN`'s check, and the statuses of its clauses. -/
theorem witness_HostLoadProgramRule :
    ([0x05] : List Byte).length ≤ Config.maxLen ∧
      Config.maxLen < (List.replicate (Config.maxLen + 1) (0 : Byte)).length :=
  ⟨by decide, by rw [List.length_replicate]; exact Nat.lt_succ_self _⟩
theorem witness_isFaulted :
    isFaulted { State.reset with status := .faulted .divisionByZero } ∧
      ¬ isFaulted { State.reset with status := .halted .endOfProgram } :=
  ⟨⟨_, rfl⟩, fun ⟨_, h⟩ => nomatch h⟩
theorem witness_HostResetRule : ((some [(0x05 : Byte)]).getD []).length ≤ Config.maxLen ∧
    ((none : Option (List Byte)).getD []).length ≤ Config.maxLen := by decide
theorem witness_FaultedLeftOnlyByReset :
    { State.reset with status := .faulted .divisionByZero }.status = .faulted .divisionByZero ∧
      after (hostDo (.reset none) { State.reset with status := .faulted .divisionByZero })
        (fun t => t.status) = some .running := by decide
theorem witness_CanonicalBuffersAreUnique :
    (Memory.ofBytes [0x00, 0x05]).wf = true ∧ (⟨2, [(1, 0x05)]⟩ : Memory).wf = true ∧
      (Memory.ofBytes [0x00, 0x05]).len = (⟨2, [(1, 0x05)]⟩ : Memory).len ∧
      Memory.ofBytes [0x00, 0x05] = ⟨2, [(1, 0x05)]⟩ := by decide
/-- A buffer with a listed zero byte, or an offset at its length, is not in canonical form. -/
theorem test_wf_refuses : (⟨2, [(1, 0x00)]⟩ : Memory).wf = false ∧
    (⟨1, [(1, 0x05)]⟩ : Memory).wf = false := by decide
/-- S9: LOAD then HLT runs to completion in exactly 2 steps. -/
theorem witness_Run : ∃ t, run 2 (launch [0x00, 0x00, 0x01, 0xF4, 0x05] [] 0) = .ended 2 t ∧
    t.status = .halted .hltInstruction := ⟨_, rfl, rfl⟩
theorem witness_LargerBudgetSameRun : 2 ≤ 3 ∧ ∃ t, run 2 (launch [0x05] [] 0) = .ended 1 t :=
  ⟨by decide, _, rfl⟩

end Sys2Proof.Tests
end

section
/-! PROOFS. The family of 00_scope.md: that a step, and the instruction it executes, always answers a next state. -/

namespace Sys2Proof.Machine

/-- No instruction ends in the host's fault or refusal, whatever the state: a fault of the spec is entered
as a next state (log entries 5 and 11). -/
theorem exec_answers (i : Instr) (s : State) : ∃ t, exec i s = .next t := by
  obtain ⟨_, -, -, fault⟩ | ⟨_, _, -, write⟩ | ⟨_, _, _, -, divide⟩ | ⟨_, -, jump⟩ |
    ⟨-, hlt⟩ | ⟨-, igl⟩ := exec_cases i s
  · exact ⟨_, fault⟩
  · exact ⟨_, write⟩
  · exact ⟨_, divide⟩
  · exact ⟨_, jump⟩
  · exact ⟨_, hlt⟩
  · exact ⟨_, igl⟩

/-- Settles O37: a step keeps a stopped machine, stops at the end, enters the fault of an instruction cut
short, or executes one, which answers by `exec_answers`. -/
theorem everyStepAnswers : Obligations.EveryStepAnswers := by
  intro om s
  obtain ⟨-, latched⟩ | ⟨-, -, ended⟩ | ⟨_, -, -, -, cut⟩ | ⟨_, i, _, -, -, -, -, -, executed⟩ :=
    stepWith_cases om s
  · exact ⟨_, latched⟩
  · exact ⟨_, ended⟩
  · exact ⟨_, cut⟩
  · rw [executed]
    exact exec_answers i s

end Sys2Proof.Machine
end

section
/-! PROOFS. The family of 10_state.md: what reset leaves, that canonical buffers are unique, and which fields a step
that does not fault may change. -/

namespace Sys2Proof.Machine

/-! ## Reset -/

/-- Settles O1. -/
theorem resetState : Obligations.ResetState := by
  have regs (i : Fin 32) : State.reset.rfRead i = 0 := by
    simp [State.rfRead, State.reset, Vector.get_eq_getElem]
  have noByte (k : Nat) : State.reset.prog.read k = none := Memory.read_of_ge (Nat.zero_le k)
  exact ⟨regs, rfl, rfl, rfl, rfl, noByte, rfl⟩

/-- Settles O2: a loaded buffer is in canonical form, the initial one is short enough, and a running
machine owes no reason for halting. -/
theorem resetMeetsInvariant : Obligations.ResetMeetsInvariant := fun _ =>
  { memWf := Memory.wf_ofBytes Config.initProg
    lenOk := Nat.zero_le Config.maxLen
    haltSound := trivial }

/-! ## Canonical buffers -/

theorem cellsWf_cons {lo hi k : Nat} {b : Byte} {cs : List Host.Cell} :
    cellsWf lo hi ((k, b) :: cs) = true ↔
      lo ≤ k ∧ k < hi ∧ b ≠ Config.unlistedByte ∧ cellsWf (k + 1) hi cs = true := by
  simp [cellsWf, and_assoc]

@[simp] theorem cellAt_head (k : Nat) (b : Byte) (cs : List Host.Cell) :
    cellAt ((k, b) :: cs) k = b := if_pos rfl

theorem cellAt_cons_of_ne {k a : Nat} (b : Byte) (cs : List Host.Cell) (h : k ≠ a) :
    cellAt ((k, b) :: cs) a = cellAt cs a := if_neg h

/-- Canonical cells list no offset below their lower bound. -/
theorem le_of_cellAt_ne {lo hi a : Nat} {cs : List Host.Cell} (wf : cellsWf lo hi cs = true)
    (listed : cellAt cs a ≠ Config.unlistedByte) : lo ≤ a :=
  Nat.le_of_not_lt fun below => listed (cellAt_below wf below)

/-- The first cell of canonical cells is at the least offset that holds a listed byte, so cells that give
the same bytes begin alike. -/
theorem cells_unique {hi : Nat} : ∀ {cs ds : List Host.Cell} {lo lo' : Nat},
    cellsWf lo hi cs = true → cellsWf lo' hi ds = true → (∀ a, cellAt cs a = cellAt ds a) → cs = ds
  | [], [], _, _, _, _, _ => rfl
  | [], (k, b) :: ds, _, _, _, wfd, same => by
    obtain ⟨-, -, listed, -⟩ := cellsWf_cons.mp wfd
    exact absurd ((cellAt_head k b ds).symm.trans (same k).symm) listed
  | (k, b) :: cs, [], _, _, wfc, _, same => by
    obtain ⟨-, -, listed, -⟩ := cellsWf_cons.mp wfc
    exact absurd ((cellAt_head k b cs).symm.trans (same k)) listed
  | (k, b) :: cs, (j, c) :: ds, _, _, wfc, wfd, same => by
    obtain ⟨-, hk, hb, restc⟩ := cellsWf_cons.mp wfc
    obtain ⟨-, hj, hc, restd⟩ := cellsWf_cons.mp wfd
    have hkj : k ≤ j := le_of_cellAt_ne (cellsWf_cons.mpr ⟨le_rfl, hk, hb, restc⟩)
      (by rwa [same, cellAt_head])
    have hjk : j ≤ k := le_of_cellAt_ne (cellsWf_cons.mpr ⟨le_rfl, hj, hc, restd⟩)
      (by rwa [← same, cellAt_head])
    obtain rfl : k = j := Nat.le_antisymm hkj hjk
    obtain rfl : b = c := by simpa using same k
    have sameRest (a : Nat) : cellAt cs a = cellAt ds a := by
      by_cases ha : k = a
      · subst ha
        rw [cellAt_below restc (Nat.lt_succ_self k), cellAt_below restd (Nat.lt_succ_self k)]
      · rw [← cellAt_cons_of_ne b cs ha, same, cellAt_cons_of_ne b ds ha]
    rw [cells_unique restc restd sameRest]

/-- Settles O49: below the length the cells give the bytes read, from the length on the unlisted byte, so
the cells agree everywhere and `cells_unique` applies. -/
theorem canonicalBuffersAreUnique : Obligations.CanonicalBuffersAreUnique := by
  rintro ⟨len, cs⟩ ⟨_, ds⟩ wfc wfd rfl same
  have sameCells (a : Nat) : cellAt cs a = cellAt ds a := by
    by_cases ha : a < len
    · have hread := same a
      rw [Memory.read_of_lt ha, Memory.read_of_lt ha] at hread
      exact Option.some.inj hread
    · rw [cellAt_above wfc (Nat.le_of_not_lt ha), cellAt_above wfd (Nat.le_of_not_lt ha)]
  exact congrArg (Memory.mk len) (cells_unique wfc wfd sameCells)

/-! ## Steps that do not fault -/

/-- The ways an instruction of an opcode completes: `Completes s op t` says that one executed in `s`
leaves `t` without a fault. -/
inductive Completes (s : State) : Opcode → State → Prop where
  | write {op : Opcode} (hop : op = .load ∨ op = .add ∨ op = .sub ∨ op = .mul) (d : Fin 32)
      (v : Word) : Completes s op ((s.rfWrite d v).pcAdvance 4)
  | divide (d : Fin 32) (q r : Word) : Completes s .div (((s.rfWrite d q).rfWriteRem r).pcAdvance 4)
  | jump (target : Word) : Completes s .jmp (s.pcLoad target)
  | hlt : Completes s .hlt (((s.pcAdvance 1).emit .hlt).stop .hltInstruction)
  | igl : Completes s .igl (((s.pcAdvance 1).emit .illegal).stop .illegalOpcode)

theorem isFaulted_raiseFault (s : State) (c : FaultCause) : isFaulted (s.raiseFault c) := ⟨c, rfl⟩

theorem exec_completes {i : Instr} {s t : State} (h : exec i s = .next t) (hf : ¬ isFaulted t) :
    Completes s (opcodeOf i) t := by
  obtain ⟨c, -, -, fault⟩ | ⟨d, v, hop, write⟩ | ⟨d, q, r, hop, divide⟩ | ⟨v, hop, jump⟩ |
    ⟨hop, hlt⟩ | ⟨hop, igl⟩ := exec_cases i s
  · cases h.symm.trans fault
    exact absurd (isFaulted_raiseFault s c) hf
  · cases h.symm.trans write
    exact .write hop d v
  · cases h.symm.trans divide
    exact hop ▸ .divide d q r
  · cases h.symm.trans jump
    exact hop ▸ .jump v
  · cases h.symm.trans hlt
    exact hop ▸ .hlt
  · cases h.symm.trans igl
    exact hop ▸ .igl

/-- A step that does not fault leaves a stopped machine as it is, stops at the end of the program, or
completes the instruction at `pc`. -/
theorem stepWith_completes {om : OpMap} {s t : State} (h : stepWith om s = .next t)
    (hf : ¬ isFaulted t) :
    (s.status ≠ .running ∧ t = s) ∨ (s.prog.len ≤ s.pc.toNat ∧ t = s.stop .endOfProgram) ∨
      ∃ op, s.status = .running ∧ (s.prog.read s.pc.toNat).map om = some op ∧ Completes s op t := by
  obtain ⟨stopped, latched⟩ | ⟨-, past, ended⟩ | ⟨e, -, -, -, cut⟩ |
    ⟨b, i, _, running, -, hb, -, hop, executed⟩ := stepWith_cases om s
  · cases h.symm.trans latched
    exact .inl ⟨stopped, rfl⟩
  · cases h.symm.trans ended
    exact .inr (.inl ⟨past, rfl⟩)
  · cases h.symm.trans cut
    exact absurd (isFaulted_raiseFault s (fetchFault e)) hf
  · refine .inr (.inr ⟨om b, running, by rw [hb, Option.map_some], ?_⟩)
    rw [← hop]
    exact exec_completes (executed.symm.trans h) hf

namespace Completes

variable {s t : State} {op : Opcode}

theorem rem_eq (h : Completes s op t) (hop : op ≠ .div) : t.rem = s.rem := by
  cases h with
  | divide => exact absurd rfl hop
  | write | jump | hlt | igl => simp

/-- The writing opcodes change one general register at most, the others none (10_state.md R15). -/
theorem regs (h : Completes s op t) :
    RegsKept s t ∨
      (∃ d, RegsKeptBut d s t) ∧ op ∈ [Opcode.load, .add, .sub, .mul, .div] := by
  cases h with
  | write hop d v =>
    refine .inr ⟨⟨d, fun i hi => by simp [hi.symm]⟩, ?_⟩
    obtain rfl | rfl | rfl | rfl := hop <;> decide
  | divide d q r => exact .inr ⟨⟨d, fun i hi => by simp [hi.symm]⟩, by decide⟩
  | jump | hlt | igl => exact .inl fun _ => by simp

/-- Every opcode but JMP moves `pc` past its bytes, in 32 bits (10_state.md R19). -/
theorem pc_eq (h : Completes s op t) (hop : op ≠ .jmp) :
    t.pc = s.pc + BitVec.ofNat 32 (opcodeLength op) := by
  cases h with
  | write hw d v => obtain rfl | rfl | rfl | rfl := hw <;> rfl
  | jump => exact absurd rfl hop
  | divide | hlt | igl => rfl

end Completes

/-- Settles O34: every other way to end a step short of a fault keeps `rem`. -/
theorem remainderOnlyByDiv : Obligations.RemainderOnlyByDiv := by
  intro om s t h hf changed
  obtain ⟨-, rfl⟩ | ⟨-, rfl⟩ | ⟨op, running, hop, completed⟩ := stepWith_completes h hf
  · exact absurd rfl changed
  · exact absurd (State.stop_rem s _) changed
  · have isDiv : op = .div := not_imp_comm.mp completed.rem_eq changed
    exact ⟨running, isDiv ▸ hop⟩

/-- Settles O35: of the ways to end a step short of a fault only those of the five opcodes write a
register. -/
theorem registersWrittenByFive : Obligations.RegistersWrittenByFive := by
  intro om s t h hf
  obtain ⟨-, rfl⟩ | ⟨-, rfl⟩ | ⟨op, running, hop, completed⟩ := stepWith_completes h hf
  · exact .inl fun _ => rfl
  · exact .inl fun i => State.rfRead_stop s _ i
  · exact completed.regs.imp id fun ⟨kept, five⟩ => ⟨running, kept, op, hop, five⟩

/-! ## The counter -/

theorem opcodeLength_le (op : Opcode) : opcodeLength op ≤ 4 := by cases op <;> decide

/-- Below `MAXLEN` the counter has room for an instruction, so advancing it does not wrap (10_state.md R20). -/
theorem toNat_pc_advance {pc : PcWord} {n : Nat} (hpc : pc.toNat < Config.maxLen) (hn : n ≤ 4) :
    (pc + BitVec.ofNat 32 n).toNat = pc.toNat + n := by
  have hpc' : pc.toNat < 2147483648 := hpc
  rw [BitVec.toNat_add, BitVec.toNat_ofNat]
  omega

theorem toNat_eq_toInt_of_nonneg {v : Word} (h : 0 ≤ v.toInt) : (v.toNat : Int) = v.toInt := by
  have msb : v.msb = false := by rw [BitVec.msb_eq_toInt]; exact decide_eq_false (Int.not_lt.mpr h)
  exact (BitVec.toInt_eq_toNat_of_msb msb).symm

/-- A JMP that does not fault loads the counter from the register its operand names. -/
theorem exec_jmp_target {r : Byte} {s t : State} (h : exec (.jmp r) s = .next t)
    (hf : ¬ isFaulted t) :
    ∃ hr : r.toNat < 32, t = s.pcLoad (s.rfRead ⟨r.toNat, hr⟩) := by
  by_cases hr : r.toNat < 32
  · simp only [exec, execJmp, sourceOperand_of_lt hr] at h
    cases h
    exact ⟨hr, rfl⟩
  · simp only [exec, execJmp, sourceOperand_of_ge (Nat.le_of_not_lt hr)] at h
    cases h
    exact absurd (isFaulted_raiseFault s _) hf

/-- A step at the opcode byte of JMP that does not fault executes a JMP with the byte after it. -/
theorem step_at_jmp {s t : State} {b : Byte} (hs : s.status = .running)
    (hb : s.prog.read s.pc.toNat = some b) (hop : defaultOpmap b = .jmp) (h : step s = .next t)
    (hf : ¬ isFaulted t) :
    ∃ r, s.prog.read (s.pc.toNat + 1) = some r ∧ exec (.jmp r) s = .next t := by
  rw [step_at hs hb, hop] at h
  cases hd : decodeOperands .jmp b (s.prog.window (s.pc.toNat + 1) 3) with
  | error e =>
    rw [hd] at h
    cases h
    exact absurd (isFaulted_raiseFault s _) hf
  | ok ir =>
    obtain ⟨i, rest⟩ := ir
    obtain ⟨r, hw, rfl⟩ := decodeR_ok.mp hd
    rw [hd] at h
    have hr := s.prog.getElem?_window (s.pc.toNat + 1) 3 0 (by decide)
    rw [hw] at hr
    exact ⟨r, hr.symm, h⟩

/-- Settles O40: a completed instruction other than JMP advances `pc` by its length, which does not wrap
since `pc < LEN ≤ MAXLEN`; a JMP loads it from the register its operand byte names. -/
theorem pcMovesByRule : Obligations.PcMovesByRule := by
  intro s t b hs hlen hb h hf
  have hpc : s.pc.toNat < s.prog.len := Memory.lt_of_read hb
  constructor
  · intro notJmp
    obtain ⟨stopped, -⟩ | ⟨past, -⟩ | ⟨op, -, hop, completed⟩ := stepWith_completes h hf
    · exact absurd hs stopped
    · exact absurd hpc (Nat.not_lt.mpr past)
    · obtain rfl : defaultOpmap b = op := by simpa [hb] using hop
      rw [completed.pc_eq notJmp]
      exact toNat_pc_advance (Nat.lt_of_lt_of_le hpc hlen) (opcodeLength_le _)
  · intro isJmp
    obtain ⟨r, hread, hexec⟩ := step_at_jmp hs hb isJmp h hf
    obtain ⟨hr, rfl⟩ := exec_jmp_target hexec hf
    exact ⟨r, hr, hread, fun nonneg => by
      rw [State.pcLoad_pc]
      exact toNat_eq_toInt_of_nonneg nonneg⟩

end Sys2Proof.Machine
end

section
/-! PROOFS. The family of 20_memory.md: that no step writes the program buffer, and that every step keeps the
invariant. -/

namespace Sys2Proof.Machine

/-! ## The program buffer -/

/-- No instruction writes the program buffer: of what `exec_cases` allows, no update touches `prog`. -/
theorem exec_prog {i : Instr} {s t : State} (h : exec i s = .next t) : t.prog = s.prog := by
  obtain ⟨_, -, -, out⟩ | ⟨_, _, -, out⟩ | ⟨_, _, _, -, out⟩ | ⟨_, -, out⟩ | ⟨-, out⟩ | ⟨-, out⟩ :=
    exec_cases i s
  all_goals
    cases h.symm.trans out
    rfl

theorem stepWith_prog {om : OpMap} {s t : State} (h : stepWith om s = .next t) :
    t.prog = s.prog := by
  obtain ⟨-, latched⟩ | ⟨-, -, ended⟩ | ⟨_, -, -, -, cut⟩ | ⟨_, i, _, -, -, -, -, -, executed⟩ :=
    stepWith_cases om s
  · cases h.symm.trans latched
    rfl
  · cases h.symm.trans ended
    rfl
  · cases h.symm.trans cut
    rfl
  · exact exec_prog (executed.symm.trans h)

/-- Settles O33: the whole buffer is kept, so its length and every byte of it are. -/
theorem programNeverWritten : Obligations.ProgramNeverWritten := by
  intro om s t h
  have kept : t.prog = s.prog := stepWith_prog h
  exact ⟨congrArg Memory.len kept, fun k => congrArg (Memory.read · k) kept, kept⟩

/-! ## The invariant -/

theorem haltSound_of_running {om : OpMap} {s : State} (h : s.status = .running) :
    HaltSound om s := by
  rw [HaltSound, h]
  trivial

theorem haltSound_of_isFaulted {om : OpMap} {s : State} (h : isFaulted s) : HaltSound om s := by
  obtain ⟨c, hc⟩ := h
  rw [HaltSound, hc]
  trivial

theorem haltSound_stop_endOfProgram {om : OpMap} {s : State} (h : s.prog.len ≤ s.pc.toNat) :
    HaltSound om (s.stop .endOfProgram) := h

/-- Past a one-byte instruction and its event a machine shows both: the counter did not wrap, so the byte
before it is the one just executed. -/
theorem shows_byte_and_event {om : OpMap} {s : State} {op : Opcode} (e : DiagEvent)
    (hpc : s.pc.toNat < Config.maxLen) (hop : (s.prog.read s.pc.toNat).map om = some op) :
    ((s.pcAdvance 1).emit e).pc ≠ 0 ∧
      (((s.pcAdvance 1).emit e).prog.read (((s.pcAdvance 1).emit e).pc.toNat - 1)).map om = some op ∧
      ((s.pcAdvance 1).emit e).diag.getLast? = some e := by
  have advanced : ((s.pcAdvance 1).emit e).pc.toNat = s.pc.toNat + 1 :=
    toNat_pc_advance hpc (by decide)
  refine ⟨fun zero => ?_, ?_, List.getLast?_concat⟩
  · rw [zero] at advanced
    exact absurd advanced (Nat.zero_ne_add_one _)
  · rwa [advanced, Nat.add_sub_cancel]

/-- A completed instruction goes on running, but for HLT and IGL, which show why they halt. -/
theorem Completes.haltSound {om : OpMap} {s t : State} {op : Opcode} (h : Completes s op t)
    (running : s.status = .running) (hpc : s.pc.toNat < Config.maxLen)
    (hop : (s.prog.read s.pc.toNat).map om = some op) : HaltSound om t := by
  cases h with
  | write | divide | jump => exact haltSound_of_running running
  | hlt => exact shows_byte_and_event .hlt hpc hop
  | igl => exact shows_byte_and_event .illegal hpc hop

/-- Every step keeps the invariant, under every map: the buffer is kept whole, and a machine that the step
halts shows why, since `pc < LEN ≤ MAXLEN` at every instruction executed. -/
theorem stepWith_inv {om : OpMap} {s t : State} (inv : Inv om s) (h : stepWith om s = .next t) :
    Inv om t := by
  have kept : t.prog = s.prog := stepWith_prog h
  refine ⟨kept ▸ inv.memWf, kept ▸ inv.lenOk, ?_⟩
  by_cases hf : isFaulted t
  · exact haltSound_of_isFaulted hf
  · obtain ⟨-, rfl⟩ | ⟨past, rfl⟩ | ⟨op, running, hop, completed⟩ := stepWith_completes h hf
    · exact inv.haltSound
    · exact haltSound_stop_endOfProgram past
    · obtain ⟨b, hb, -⟩ := Option.map_eq_some_iff.mp hop
      have hpc : s.pc.toNat < Config.maxLen := Nat.lt_of_lt_of_le (Memory.lt_of_read hb) inv.lenOk
      exact completed.haltSound running hpc hop

/-- Settles O30, the default map's case of `stepWith_inv`. -/
theorem stepKeepsInvariant : Obligations.StepKeepsInvariant := fun _ _ => stepWith_inv

end Sys2Proof.Machine
end

section
/-! PROOFS. The family of 30_encoding.md: that decoder and encoder are inverse to each other, that an encoded instruction
is what a step executes, and that one with a bad register index faults. -/

namespace Sys2Proof

/-! ## Decoder and encoder -/

/-- The opcode byte of a named opcode is all an encoding takes from `ob`; an illegal instruction takes nothing. -/
theorem encodeWith_congr {ob ob' : Opcode → Byte} {i : Instr}
    (same : opcodeOf i ≠ .igl → ob (opcodeOf i) = ob' (opcodeOf i)) :
    encodeWith ob i = encodeWith ob' i := by
  cases i with
  | igl c => rfl
  | load | add | sub | mul | div | hlt | jmp => exact congrArg (· :: _) (same nofun)

theorem length_encodeWith (ob : Opcode → Byte) (i : Instr) :
    (encodeWith ob i).length = opcodeLength (opcodeOf i) := by
  cases i <;> rfl

theorem decodeWith_cons {om : OpMap} {b : Byte} {op : Opcode} (h : om b = op) (bs : List Byte) :
    decodeWith om (b :: bs) = decodeOperands op b bs := h ▸ rfl

/-- Decoding gives back an encoded instruction whose opcode byte the map sends to its opcode: the map
chooses the format, which accepts the operand bytes. -/
theorem decodeWith_encodeWith {om : OpMap} {ob : Opcode → Byte} {i : Instr}
    (sentBack : opcodeOf i ≠ .igl → om (ob (opcodeOf i)) = opcodeOf i)
    (wf : wellFormedFor om i = true) (rest : List Byte) :
    decodeWith om (encodeWith ob i ++ rest) = .ok (i, rest) := by
  cases i with
  | load d imm =>
    refine (decodeWith_cons (sentBack nofun) _).trans (decodeRI_ok.mpr ⟨d, _, _, rfl, ?_⟩)
    rw [bigEndian_bytes]
  | add a b d | sub a b d | mul a b d | div a b d =>
    exact (decodeWith_cons (sentBack nofun) _).trans (decodeRRR_ok.mpr ⟨a, b, d, rfl, rfl⟩)
  | jmp s => exact (decodeWith_cons (sentBack nofun) _).trans (decodeR_ok.mpr ⟨s, rfl, rfl⟩)
  | hlt => exact decodeWith_cons (sentBack nofun) _
  | igl c => exact decodeWith_cons (of_decide_eq_true wf) _

/-- The operand decoders drop no byte: the opcode byte and what they were given encode what they answer. -/
theorem encodeWith_of_decodeOperands {op : Opcode} {byte : Byte} {bs rest : List Byte} {i : Instr}
    (h : decodeOperands op byte bs = .ok (i, rest)) :
    byte :: bs = encodeWith (fun _ => byte) i ++ rest := by
  cases op with
  | load =>
    obtain ⟨d, hi, lo, rfl, rfl⟩ := decodeRI_ok.mp h
    simp [encodeWith]
  | add | sub | mul | div =>
    obtain ⟨a, b, d, rfl, rfl⟩ := decodeRRR_ok.mp h
    rfl
  | jmp =>
    obtain ⟨s, rfl, rfl⟩ := decodeR_ok.mp h
    rfl
  | hlt | igl =>
    cases h
    rfl

/-- Whatever decodes is its own encoding with the opcode byte it was read from, and is well formed. -/
theorem encodeWith_of_decodeWith {om : OpMap} {b : Byte} {bs rest : List Byte} {i : Instr}
    (h : decodeWith om (b :: bs) = .ok (i, rest)) :
    b :: bs = encodeWith (fun _ => b) i ++ rest ∧ wellFormedFor om i = true := by
  have bytes : b :: bs = encodeWith (fun _ => b) i ++ rest := encodeWith_of_decodeOperands h
  refine ⟨bytes, ?_⟩
  cases i with
  | igl c =>
    obtain ⟨rfl, -⟩ := List.cons.inj bytes
    exact decide_eq_true (Machine.opcodeOf_decodeWith h).symm
  | load | add | sub | mul | div | hlt | jmp => rfl

/-- Settles O4: `decodeWith_encodeWith`, whose premise the default opcode bytes meet. -/
theorem decodeOfEncode : Obligations.DecodeOfEncode :=
  ⟨fun _ _ sentBack i rest wf => decodeWith_encodeWith (sentBack (opcodeOf i)) wf rest,
    fun i rest wf =>
      decodeWith_encodeWith (fun _ => defaultOpmap_defaultByte (opcodeOf i)) wf rest⟩

/-- Settles O5: under the default map a named opcode has one byte only, so the byte read is the one the
encoder writes. -/
theorem encodeOfDecode : Obligations.EncodeOfDecode := by
  intro bs i rest h
  cases bs with
  | nil => cases h
  | cons b bs =>
    obtain ⟨bytes, wf⟩ := encodeWith_of_decodeWith h
    have op : opcodeOf i = defaultOpmap b := Machine.opcodeOf_decodeWith h
    have sameByte : encode i = encodeWith (fun _ => b) i := encodeWith_congr fun named => by
      rw [op] at named ⊢
      exact defaultByte_defaultOpmap b named
    exact ⟨wf, by rw [sameByte, bytes]⟩

/-- Settles O7: what decodes is an encoding, and an encoding is as long as its opcode says. -/
theorem lengthFromOpcodeAlone : Obligations.LengthFromOpcodeAlone := by
  intro om b bs i rest h
  obtain ⟨bytes, -⟩ := encodeWith_of_decodeWith h
  have consumed : (b :: bs).length = rest.length + opcodeLength (om b) := by
    rw [bytes, List.length_append, length_encodeWith, Machine.opcodeOf_decodeWith h, Nat.add_comm]
  rw [consumed]
  cases om b <;> rfl

end Sys2Proof

namespace Sys2Proof.Machine

/-! ## Executing an encoded instruction -/

/-- A window over bytes that lie in the buffer is those bytes. -/
theorem Memory.window_of_reads {m : Memory} : ∀ {bs : List Byte} {a : Nat},
    (∀ k, k < bs.length → m.read (a + k) = bs[k]?) → m.window a bs.length = bs
  | [], _, _ => rfl
  | b :: bs, a, reads => by
    have first : m.read a = some b := reads 0 (Nat.zero_lt_succ _)
    have others : ∀ k, k < bs.length → m.read (a + 1 + k) = bs[k]? := fun k hk => by
      rw [Nat.add_assoc, Nat.add_comm 1 k]
      exact reads (k + 1) (Nat.succ_lt_succ hk)
    rw [List.length_cons, Memory.window_succ first, Memory.window_of_reads others]

/-- When the bytes a running machine fetches decode, a step executes what they decode to (R71, R72). -/
theorem stepWith_eq_exec {om : OpMap} {s : State} {i : Instr} {rest : List Byte}
    (running : s.status = .running) (inside : s.pc.toNat < s.prog.len)
    (decodes : decodeWith om s.fetchWindow = .ok (i, rest)) : stepWith om s = exec i s := by
  obtain ⟨stopped, -⟩ | ⟨-, past, -⟩ | ⟨_, -, -, refused, -⟩ | ⟨_, _, _, -, -, -, read, -, executed⟩ :=
    stepWith_cases om s
  · exact absurd running stopped
  · exact absurd inside (Nat.not_lt.mpr past)
  · cases decodes.symm.trans refused
  · cases decodes.symm.trans read
    exact executed

/-- Settles O10: the four bytes fetched begin with the encoding, since no encoding is longer, and decode to
the instruction by `decodeWith_encodeWith`. -/
theorem stepRunsEncodedInstruction : Obligations.StepRunsEncodedInstruction := by
  intro s i wf running reads
  have length : (encode i).length = opcodeLength (opcodeOf i) := length_encodeWith _ i
  have fits : (encode i).length ≤ 4 := length ▸ opcodeLength_le _
  have nonempty : 0 < (encode i).length := by
    rw [length]
    cases opcodeOf i <;> decide
  have inside : s.pc.toNat < s.prog.len :=
    Memory.lt_of_read ((reads 0 nonempty).trans (List.getElem?_eq_getElem nonempty))
  have begins : encode i <+: s.fetchWindow := by
    have start := (Memory.take_window s.prog s.pc.toNat 4 _ fits).trans (Memory.window_of_reads reads)
    exact start ▸ List.take_prefix _ _
  obtain ⟨rest, fetched⟩ := begins
  exact stepWith_eq_exec running inside (fetched ▸ decodeOfEncode.2 i rest wf)

/-! ## Bad register indices -/

theorem faultEntry_raiseFault (s : State) (c : FaultCause) : FaultEntry c s (s.raiseFault c) :=
  ⟨rfl, rfl, fun _ => rfl, rfl⟩

/-- All three indices are checked before the `alu` is asked, so no value of a register matters (R74). -/
theorem execBinop_of_bad_index (op : AluOp) {a b d : Byte} (s : State)
    (bad : ∃ r ∈ [a, b, d], 32 ≤ r.toNat) :
    execBinop op a b d s = .next (s.raiseFault .registerIndexOutOfRange) := by
  unfold execBinop
  by_cases ha : a.toNat < 32
  · by_cases hb : b.toNat < 32
    · have hd : 32 ≤ d.toNat := by
        simp only [List.mem_cons, List.not_mem_nil, or_false, exists_eq_or_imp, exists_eq_left] at bad
        omega
      simp only [sourceOperand_of_lt ha, sourceOperand_of_lt hb, destOperand_of_ge hd]
    · simp only [sourceOperand_of_lt ha, sourceOperand_of_ge (Nat.le_of_not_lt hb)]
  · simp only [sourceOperand_of_ge (Nat.le_of_not_lt ha)]

theorem exec_of_bad_index {i : Instr} (s : State) (bad : ∃ b ∈ indexOperands i, 32 ≤ b.toNat) :
    exec i s = .next (s.raiseFault .registerIndexOutOfRange) := by
  cases i with
  | load d imm =>
    obtain ⟨_, hb, hd⟩ := bad
    cases List.mem_singleton.mp hb
    simp only [exec, execLoad, destOperand_of_ge hd]
  | add a b d => exact execBinop_of_bad_index .add s bad
  | sub a b d => exact execBinop_of_bad_index .sub s bad
  | mul a b d => exact execBinop_of_bad_index .mul s bad
  | div a b d => exact execBinop_of_bad_index .div s bad
  | jmp r =>
    obtain ⟨_, hb, hr⟩ := bad
    cases List.mem_singleton.mp hb
    simp only [exec, execJmp, sourceOperand_of_ge hr]
  | hlt | igl =>
    obtain ⟨_, mem, -⟩ := bad
    cases mem

/-- Settles O26. -/
theorem badIndexFaults : Obligations.BadIndexFaults := fun _ s bad =>
  ⟨_, exec_of_bad_index s bad, faultEntry_raiseFault s _⟩

end Sys2Proof.Machine
end

section
/-! PROOFS. The family of 40_engine_step.md: what a step of a running and of a stopped machine does, the transitions out
of `Running`, and what a run that returns has done. -/

namespace Sys2Proof.Machine

/-! ## One step -/

/-- Settles O9: `stepWith_eq_exec`, of which `step` is the default map's case; a window's bytes are the
buffer's. -/
theorem stepRunsDecodedInstruction : Obligations.StepRunsDecodedInstruction :=
  ⟨fun _ _ _ _ => stepWith_eq_exec, fun _ _ _ => stepWith_eq_exec,
    fun s => s.prog.getElem?_window s.pc.toNat 4⟩

/-- The latch (R69). -/
theorem stepWith_of_stopped {om : OpMap} {s : State} (stopped : s.status ≠ .running) :
    stepWith om s = .next s := by
  obtain ⟨-, latched⟩ | ⟨running, -⟩ | ⟨_, running, -⟩ | ⟨_, _, _, running, -⟩ := stepWith_cases om s
  · exact latched
  all_goals exact absurd running stopped

/-- The end check (R70). -/
theorem stepWith_of_past_end {om : OpMap} {s : State} (running : s.status = .running)
    (past : s.prog.len ≤ s.pc.toNat) : stepWith om s = .next (s.stop .endOfProgram) := by
  obtain ⟨stopped, -⟩ | ⟨-, -, ended⟩ | ⟨_, -, inside, -⟩ | ⟨_, _, _, -, inside, -⟩ :=
    stepWith_cases om s
  · exact absurd running stopped
  · exact ended
  all_goals exact absurd past (Nat.not_le.mpr inside)

theorem stepOutputs_of_step {s t : State} (h : step s = .next t) :
    stepOutputs s = some (outputsOf s t) := by rw [stepOutputs, h]

/-- A step that emits nothing shows no event. -/
theorem outputsOf_of_diag_eq {s t : State} (silent : t.diag = s.diag) :
    outputsOf s t = ⟨continues t.status, faultOutput t.status, causeCode t.status, none⟩ := by
  rw [outputsOf, silent, List.drop_length, List.head?_nil]

theorem continues_iff {st : Status} : continues st = true ↔ st = .running := by
  cases st <;> simp [continues]

/-- Settles O11: by the latch the step leads back to the same state, which has emitted nothing since. -/
theorem stoppedMachineStaysAsItIs : Obligations.StoppedMachineStaysAsItIs := by
  intro s stopped
  have latched : step s = .next s := stepWith_of_stopped stopped
  have noContinue : continues s.status = false := by
    rwa [← Bool.not_eq_true, continues_iff]
  refine ⟨latched, ?_⟩
  rw [stepOutputs_of_step latched, outputsOf_of_diag_eq rfl, noContinue]

/-- Settles O12: the end check writes the status only. -/
theorem endOfProgramStops : Obligations.EndOfProgramStops := by
  intro s running past
  have ended : step s = .next (s.stop .endOfProgram) := stepWith_of_past_end running past
  refine ⟨_, ended, rfl, fun _ => rfl, rfl, rfl, rfl, rfl, ?_⟩
  rw [stepOutputs_of_step ended, outputsOf_of_diag_eq (State.stop_diag s _)]
  rfl

/-! ## The transitions out of `Running` -/

/-- The transitions of R77: `StatusAfter o st` says that a step of the running machine can leave the status
`st` where the opcode at `pc` is `o`, none past the end of the program. -/
inductive StatusAfter : Option Opcode → Status → Prop where
  | pastEnd : StatusAfter none (.halted .endOfProgram)
  | hlt : StatusAfter (some .hlt) (.halted .hltInstruction)
  | igl : StatusAfter (some .igl) (.halted .illegalOpcode)
  | goesOn {op : Opcode} (named : op ≠ .hlt ∧ op ≠ .igl) : StatusAfter (some op) .running
  | faults {op : Opcode} (named : op ≠ .hlt ∧ op ≠ .igl) (c : FaultCause) :
      StatusAfter (some op) (.faulted c)

/-- What executing an instruction leaves, by `exec_cases`: only HLT and IGL halt, and they do not fault (R128). -/
theorem exec_statusAfter {i : Instr} {s t : State} (running : s.status = .running)
    (h : exec i s = .next t) : StatusAfter (some (opcodeOf i)) t.status := by
  obtain ⟨c, named, -, fault⟩ | ⟨_, _, hop, write⟩ | ⟨_, _, _, hop, divide⟩ | ⟨_, hop, jump⟩ |
    ⟨hop, hlt⟩ | ⟨hop, igl⟩ := exec_cases i s
  · cases h.symm.trans fault
    exact .faults named c
  · cases h.symm.trans write
    have named : opcodeOf i ≠ .hlt ∧ opcodeOf i ≠ .igl := by
      obtain hop | hop | hop | hop := hop <;> rw [hop] <;> decide
    exact running ▸ .goesOn named
  · cases h.symm.trans divide
    exact hop ▸ running ▸ .goesOn (by decide)
  · cases h.symm.trans jump
    exact hop ▸ running ▸ .goesOn (by decide)
  · cases h.symm.trans hlt
    exact hop ▸ .hlt
  · cases h.symm.trans igl
    exact hop ▸ .igl

/-- HLT and IGL have no operand bytes, so the end of the buffer cuts neither short (R74). -/
theorem named_of_decodeOperands_error {op : Opcode} {byte : Byte} {bs : List Byte} {e : DecodeError}
    (h : decodeOperands op byte bs = .error e) : op ≠ .hlt ∧ op ≠ .igl := by
  constructor
  all_goals
    rintro rfl
    cases h

theorem stepWith_statusAfter {om : OpMap} {s t : State} (running : s.status = .running)
    (h : stepWith om s = .next t) :
    StatusAfter ((s.prog.read s.pc.toNat).map om) t.status := by
  obtain ⟨stopped, -⟩ | ⟨-, past, ended⟩ | ⟨e, -, inside, cut, faulted⟩ |
    ⟨b, i, _, -, -, hb, -, hop, executed⟩ := stepWith_cases om s
  · exact absurd running stopped
  · cases h.symm.trans ended
    rw [Memory.read_of_ge past]
    exact .pastEnd
  · cases h.symm.trans faulted
    obtain ⟨b, hb⟩ := Option.isSome_iff_exists.mp (Memory.read_isSome.mpr inside)
    rw [State.fetchWindow, Memory.window_succ hb, decodeWith_cons rfl] at cut
    rw [hb]
    exact .faults (named_of_decodeOperands_error cut) (fetchFault e)
  · rw [hb, Option.map_some, ← hop]
    exact exec_statusAfter running (executed.symm.trans h)

/-! A status names the transition taken, and with it what stood at `pc`. -/

namespace StatusAfter

variable {o : Option Opcode} {st : Status}

theorem endOfProgram_iff (h : StatusAfter o st) : st = .halted .endOfProgram ↔ o = none := by
  cases h <;> simp

theorem hltInstruction_iff (h : StatusAfter o st) :
    st = .halted .hltInstruction ↔ o = some .hlt := by
  cases h with
  | pastEnd | hlt | igl => simp
  | goesOn named | faults named => simp [named.1]

theorem illegalOpcode_iff (h : StatusAfter o st) : st = .halted .illegalOpcode ↔ o = some .igl := by
  cases h with
  | pastEnd | hlt | igl => simp
  | goesOn named | faults named => simp [named.2]

theorem not_halted_iff (h : StatusAfter o st) :
    (st = .running ∨ ∃ c, st = .faulted c) ↔ ∃ op, o = some op ∧ op ≠ .hlt ∧ op ≠ .igl := by
  cases h with
  | pastEnd | hlt | igl => simp
  | goesOn named | faults named => simpa using named

end StatusAfter

theorem mem_named_iff {op : Opcode} :
    op ∈ [Opcode.load, .jmp, .add, .sub, .mul, .div] ↔ op ≠ .hlt ∧ op ≠ .igl := by
  cases op <;> decide

/-- Settles O38: the transition taken tells the opcode at `pc`, which is missing exactly at the end of the
program. -/
theorem transitionsFromRunning : Obligations.TransitionsFromRunning := by
  intro om s t running h
  have after := stepWith_statusAfter running h
  have past : (s.prog.read s.pc.toNat).map om = none ↔ s.prog.len ≤ s.pc.toNat :=
    Option.map_eq_none_iff.trans Memory.read_eq_none
  refine ⟨after.endOfProgram_iff.trans past, after.hltInstruction_iff, after.illegalOpcode_iff, ?_⟩
  simp only [mem_named_iff]
  exact after.not_halted_iff

/-! ## A jump to itself -/

theorem pcLoad_pc_self (s : State) : s.pcLoad s.pc = s := by
  rw [State.pcLoad, BitVec.setWidth_eq]

theorem exec_jmp_of_lt {r : Byte} (s : State) (hr : r.toNat < 32) :
    exec (.jmp r) s = .next (s.pcLoad (s.rfRead ⟨r.toNat, hr⟩)) := by
  simp only [exec, execJmp, sourceOperand_of_lt hr]

theorem steps_succ {s t : State} (h : step s = .next t) (n : Nat) :
    steps (n + 1) s = steps n t := by rw [steps, h]

theorem steps_of_step_self {s : State} (h : step s = .next s) : ∀ n, steps n s = .next s
  | 0 => rfl
  | n + 1 => (steps_succ h n).trans (steps_of_step_self h n)

/-- Settles O42: the JMP loads the counter with what it holds, so one step, and by induction any number,
leads back to the same state. -/
theorem jumpToSelfLoops : Obligations.JumpToSelfLoops := by
  intro s r hr running opcode operand target
  have reads : ∀ k, k < (encode (.jmp r)).length →
      s.prog.read (s.pc.toNat + k) = (encode (.jmp r))[k]?
    | 0, _ => opcode
    | 1, _ => operand
  have loops : step s = .next s := by
    rw [stepRunsEncodedInstruction s (.jmp r) rfl running reads, exec_jmp_of_lt s hr, target,
      pcLoad_pc_self]
  exact steps_of_step_self loops

/-! ## Runs -/

/-- What a run that returns has done (R75), whatever its budget: `RunsTo k s t` says that from `s` the `k`th
step is the first to leave the machine stopped, in the state `t`. -/
inductive RunsTo : Nat → State → State → Prop where
  | stop {s t : State} (h : step s = .next t) (stopped : t.status ≠ .running) : RunsTo 1 s t
  | goOn {k : Nat} {s t u : State} (h : step s = .next t) (running : t.status = .running)
      (rest : RunsTo k t u) : RunsTo (k + 1) s u

theorem step_answers (s : State) : ∃ t, step s = .next t := everyStepAnswers defaultOpmap s

theorem runFrom_of_stop {s t : State} (h : step s = .next t) (stopped : t.status ≠ .running)
    (n j : Nat) : runFrom (n + 1) j s = .ended (j + 1) t := by
  simp only [runFrom, h, continues_iff, stopped, if_false]

theorem runFrom_of_goOn {s t : State} (h : step s = .next t) (running : t.status = .running)
    (n j : Nat) : runFrom (n + 1) j s = runFrom n (j + 1) t := by
  simp only [runFrom, h, continues_iff, running, if_true]

theorem RunsTo.runFrom_eq {k : Nat} {s t : State} (h : RunsTo k s t) :
    ∀ {n : Nat} (j : Nat), k ≤ n → runFrom n j s = .ended (j + k) t := by
  induction h with
  | stop h stopped =>
    rintro (_ | n) j hn
    · cases hn
    · exact runFrom_of_stop h stopped n j
  | goOn h running _ ih =>
    rintro (_ | n) j hn
    · cases hn
    · rw [runFrom_of_goOn h running, ih (j + 1) (Nat.le_of_succ_le_succ hn), Nat.add_right_comm,
        Nat.add_assoc]

theorem runsTo_of_runFrom : ∀ {n j k : Nat} {s t : State}, runFrom n j s = .ended k t →
    ∃ m ≤ n, k = j + m ∧ RunsTo m s t
  | 0, _, _, _, _, h => nomatch h
  | n + 1, j, k, s, t, h => by
    obtain ⟨u, hu⟩ := step_answers s
    by_cases running : u.status = .running
    · rw [runFrom_of_goOn hu running] at h
      obtain ⟨m, hm, rfl, rest⟩ := runsTo_of_runFrom h
      exact ⟨m + 1, Nat.succ_le_succ hm, by omega, .goOn hu running rest⟩
    · rw [runFrom_of_stop hu running] at h
      cases h
      exact ⟨1, by omega, rfl, .stop hu running⟩

/-- A run returns just when its budget holds the step that stops the machine (R75, R160). -/
theorem run_eq_ended_iff {n k : Nat} {s t : State} :
    run n s = .ended k t ↔ k ≤ n ∧ RunsTo k s t := by
  constructor
  · intro h
    obtain ⟨m, hm, rfl, runs⟩ := runsTo_of_runFrom h
    rw [Nat.zero_add]
    exact ⟨hm, runs⟩
  · rintro ⟨hk, runs⟩
    rw [run, runs.runFrom_eq 0 hk, Nat.zero_add]

namespace RunsTo

variable {k : Nat} {s t : State}

theorem pos (h : RunsTo k s t) : 1 ≤ k := by
  cases h <;> omega

theorem steps_eq (h : RunsTo k s t) : steps k s = .next t := by
  induction h with
  | stop h _ => exact steps_succ h 0
  | goOn h _ _ ih => exact (steps_succ h _).trans ih

theorem stopped (h : RunsTo k s t) : t.status ≠ .running := by
  induction h with
  | stop _ stopped => exact stopped
  | goOn _ _ _ ih => exact ih

/-- Every step before the last one continued. -/
theorem running_before (h : RunsTo k s t) :
    ∀ {j : Nat} {u : State}, 1 ≤ j → j < k → steps j s = .next u → u.status = .running := by
  induction h with
  | stop => intro j u hj hk _; omega
  | goOn h running _ ih =>
    rintro (_ | _ | j) u hj hk hu
    · cases hj
    · cases (steps_succ h 0).symm.trans hu
      exact running
    · rw [steps_succ h] at hu
      exact ih (Nat.succ_pos j) (Nat.lt_of_succ_lt_succ hk) hu

end RunsTo

/-- Settles O50, part by part from what a run that returns has done. -/
theorem runReturnsStoppedMachine : Obligations.RunReturnsStoppedMachine := by
  intro n k s t h
  obtain ⟨hk, runs⟩ := run_eq_ended_iff.mp h
  exact ⟨runs.pos, hk, runs.steps_eq, runs.stopped, fun _ _ => runs.running_before⟩

/-- Every step answers a next state (R80). -/
theorem runFrom_ne_blocked : ∀ (n j : Nat) (s : State), runFrom n j s ≠ .blocked
  | 0, _, _ => nofun
  | n + 1, j, s => by
    obtain ⟨t, ht⟩ := step_answers s
    by_cases running : t.status = .running
    · rw [runFrom_of_goOn ht running]
      exact runFrom_ne_blocked n (j + 1) t
    · rw [runFrom_of_stop ht running]
      nofun

/-- Settles O51: what a run that returns has done does not depend on its budget. -/
theorem largerBudgetSameRun : Obligations.LargerBudgetSameRun := by
  refine ⟨fun n m k s t larger h => ?_, fun n => runFrom_ne_blocked n 0⟩
  obtain ⟨hk, runs⟩ := run_eq_ended_iff.mp h
  exact run_eq_ended_iff.mpr ⟨hk.trans larger, runs⟩

end Sys2Proof.Machine
end

section
/-! PROOFS. The family of 41_load.md: LOAD's effect, its encoding, and its exceptions in their order. -/

namespace Sys2Proof

/-! ## Instructions cut short -/

theorem cutShort_of_in_range {seen : List Byte} (inRange : ∀ b ∈ seen, b.toNat < 32) :
    cutShort seen = .fetchOutOfBounds :=
  if_pos (List.all_eq_true.mpr fun b hb => decide_eq_true (inRange b hb))

theorem cutShort_of_bad_index {seen : List Byte} (bad : ∃ b ∈ seen, 32 ≤ b.toNat) :
    cutShort seen = .registerIndexOutOfRange := by
  obtain ⟨b, hb, outside⟩ := bad
  refine if_neg fun all => Nat.not_lt.mpr outside ?_
  exact of_decide_eq_true (List.all_eq_true.mp all b hb)

/-- Format RI with its index byte but not both bytes of its immediate: the index is looked at first
(R74). -/
theorem decodeRI_of_short (mk : Byte → Half → Instr) (d : Byte) :
    ∀ {bs : List Byte}, bs.length < 2 → decodeRI mk (d :: bs) = .error (cutShort [d])
  | [], _ | [_], _ => rfl

theorem encode_load_bigEndian (d hi lo : Byte) :
    encode (.load d (bigEndian hi lo)) = [0x00, d, hi, lo] := by
  simp [encode, encodeWith, defaultByte]

end Sys2Proof

namespace Sys2Proof.Machine

theorem Memory.length_window_le {m : Memory} {a k n : Nat} (hk : k < n) (past : m.len ≤ a + k) :
    (m.window a n).length ≤ k :=
  List.getElem?_eq_none_iff.mp ((m.getElem?_window a n k hk).trans (Memory.read_of_ge past))

theorem step_of_operands_error {s : State} {b : Byte} {e : DecodeError}
    (running : s.status = .running)
    (opcode : s.prog.read s.pc.toNat = some b)
    (cut : decodeOperands (defaultOpmap b) b (s.prog.window (s.pc.toNat + 1) 3) = .error e) :
    step s = .next (s.raiseFault (fetchFault e)) := by
  rw [step_at running opcode, cut]

theorem faultEntry_of_step {s t : State} {c : FaultCause} (h : step s = .next t)
    (faults : step s = .next (s.raiseFault c)) : FaultEntry c s t := by
  cases h.symm.trans faults
  exact faultEntry_raiseFault s c

/-! ## What executing a LOAD does -/

theorem exec_load_of_lt {d : Byte} (imm : Half) (s : State) (hd : d.toNat < 32) :
    exec (.load d imm) s = .next ((s.rfWrite ⟨d.toNat, hd⟩ (zext32 imm)).pcAdvance 4) := by
  simp only [exec, execLoad, destOperand_of_lt hd]

theorem toNat_zext32 (imm : Half) : (zext32 imm).toNat = imm.toNat :=
  BitVec.toNat_setWidth_of_le (by decide)

/-- A zero-extended immediate is never negative (30_encoding.md R55). -/
theorem toInt_zext32 (imm : Half) : (zext32 imm).toInt = imm.toNat := by
  have small : imm.toNat < 65536 := imm.isLt
  rw [BitVec.toInt_eq_toNat_of_lt (by rw [toNat_zext32]; omega), toNat_zext32]

section WriteThenAdvance

variable (s : State) (d : Fin 32) (v : Word) (n : Nat)

theorem rfRead_write_advance : ((s.rfWrite d v).pcAdvance n).rfRead d = v := by simp

theorem regsKeptBut_write_advance : RegsKeptBut d s ((s.rfWrite d v).pcAdvance n) := fun i hi => by
  simp [hi.symm]

theorem untouched_write_advance : Untouched s ((s.rfWrite d v).pcAdvance n) :=
  ⟨rfl, rfl, fun _ => rfl, rfl⟩

end WriteThenAdvance

/-- Settles O21: with an index below 32 the immediate, zero-extended, is written and `pc` advanced. -/
theorem loadCompletes : Obligations.LoadCompletes := by
  intro s d imm hd
  refine ⟨_, exec_load_of_lt imm s hd, ?_, regsKeptBut_write_advance s _ _ 4, rfl, rfl,
    untouched_write_advance s _ _ 4⟩
  rw [rfRead_write_advance, toInt_zext32]

/-! ## A step at the opcode byte of LOAD -/

section StepAtLoad

variable {s : State} (running : s.status = .running) (opcode : s.prog.read s.pc.toNat = some 0x00)
include running opcode

theorem step_load_of_no_operand (missing : s.prog.read (s.pc.toNat + 1) = none) :
    step s = .next (s.raiseFault .fetchOutOfBounds) := by
  refine step_of_operands_error running opcode (e := .fetchOutOfBounds) ?_
  rw [Memory.window_nil missing]
  rfl

variable {d : Byte} (operand : s.prog.read (s.pc.toNat + 1) = some d)
include operand

theorem step_load_of_short (short : s.prog.len < s.pc.toNat + 4) :
    step s = .next (s.raiseFault (fetchFault (cutShort [d]))) := by
  refine step_of_operands_error running opcode ?_
  have oneAtMost : (s.prog.window (s.pc.toNat + 2) 2).length ≤ 1 :=
    Memory.length_window_le (by decide) (by omega)
  rw [Memory.window_succ operand]
  exact decodeRI_of_short .load d (Nat.lt_succ_of_le oneAtMost)

theorem step_load_of_whole {hi lo : Byte} (high : s.prog.read (s.pc.toNat + 2) = some hi)
    (low : s.prog.read (s.pc.toNat + 3) = some lo) :
    step s = exec (.load d (bigEndian hi lo)) s := by
  have reads : ∀ k, k < (encode (.load d (bigEndian hi lo))).length →
      s.prog.read (s.pc.toNat + k) = (encode (.load d (bigEndian hi lo)))[k]? := by
    rw [encode_load_bigEndian]
    exact fun
      | 0, _ => opcode
      | 1, _ => operand
      | 2, _ => high
      | 3, _ => low
  exact stepRunsEncodedInstruction s _ rfl running reads

/-- A bad index faults whether or not the immediate is cut short: the decoder looks at it in the one case
and the execution in the other (R74). -/
theorem step_load_of_bad_index (bad : 32 ≤ d.toNat) :
    step s = .next (s.raiseFault .registerIndexOutOfRange) := by
  have named : ∃ b ∈ [d], 32 ≤ b.toNat := ⟨d, List.mem_singleton_self d, bad⟩
  by_cases short : s.prog.len < s.pc.toNat + 4
  · rw [step_load_of_short running opcode operand short, cutShort_of_bad_index named]
    rfl
  · rw [step_load_of_whole running opcode operand (Memory.read_of_lt (by omega))
      (Memory.read_of_lt (by omega))]
    exact exec_of_bad_index s named

theorem step_load_of_short_in_range (inRange : d.toNat < 32) (short : s.prog.len < s.pc.toNat + 4) :
    step s = .next (s.raiseFault .fetchOutOfBounds) := by
  rw [step_load_of_short running opcode operand short,
    cutShort_of_in_range (List.forall_mem_singleton.mpr inRange)]
  rfl

end StepAtLoad

/-- Settles O13, clause by clause: each names the one way the step goes on. -/
theorem loadStep : Obligations.LoadStep := by
  intro s running fits opcode
  obtain ⟨t, ht⟩ := step_answers s
  refine ⟨t, ht, fun missing => ?_, fun d operand =>
    ⟨fun bad => ?_, fun hd => ⟨fun short => ?_, ?_⟩⟩⟩
  · exact faultEntry_of_step ht (step_load_of_no_operand running opcode missing)
  · exact faultEntry_of_step ht (step_load_of_bad_index running opcode operand bad)
  · exact faultEntry_of_step ht (step_load_of_short_in_range running opcode operand hd short)
  · intro hi lo high low
    have executed := step_load_of_whole running opcode operand high low
    cases ht.symm.trans (executed.trans (exec_load_of_lt _ s hd))
    have hpc : s.pc.toNat < Config.maxLen := Nat.lt_of_lt_of_le (Memory.lt_of_read opcode) fits
    refine ⟨?_, regsKeptBut_write_advance s _ _ 4, rfl, toNat_pc_advance hpc le_rfl,
      untouched_write_advance s _ _ 4⟩
    rw [rfRead_write_advance, toNat_zext32, toNat_bigEndian]

end Sys2Proof.Machine
end

section
/-! PROOFS. The family of 42_jump.md: JMP's effect, its encoding, its exceptions in their order, and that a jump past the
end of the program ends the run. -/

namespace Sys2Proof.Machine

/-! ## The target of a jump -/

/-- A negative register read unsigned is past every admitted buffer (93_implementation_defined.md U10). -/
theorem maxLen_le_toNat_of_neg {v : Word} (neg : v.toInt < 0) : Config.maxLen ≤ v.toNat := by
  have upperHalf : 2 ^ 32 ≤ 2 * v.toNat := BitVec.toInt_neg_iff.mp neg
  rw [Config.maxLen]
  omega

/-- The two registers whose target is past the end (R85): a negative one, and one of at least `LEN`. -/
theorem le_toNat_of_past_end {v : Word} {len : Nat} (fits : len ≤ Config.maxLen)
    (past : v.toInt < 0 ∨ (len : Int) ≤ v.toInt) : len ≤ v.toNat := by
  obtain neg | beyond := past
  · exact fits.trans (maxLen_le_toNat_of_neg neg)
  · have nonneg : 0 ≤ v.toInt := (Int.natCast_nonneg len).trans beyond
    rw [← toNat_eq_toInt_of_nonneg nonneg] at beyond
    exact Int.ofNat_le.mp beyond

/-! ## What executing a JMP does -/

section JumpTo

variable (s : State) (v : Word)

theorem toNat_pc_pcLoad_of_nonneg (nonneg : 0 ≤ v.toInt) : ((s.pcLoad v).pc.toNat : Int) = v.toInt := by
  rw [State.pcLoad_pc, toNat_eq_toInt_of_nonneg nonneg]

theorem maxLen_le_pc_pcLoad_of_neg (neg : v.toInt < 0) : Config.maxLen ≤ (s.pcLoad v).pc.toNat := by
  rw [State.pcLoad_pc]
  exact maxLen_le_toNat_of_neg neg

theorem regsKept_pcLoad : RegsKept s (s.pcLoad v) := State.rfRead_pcLoad s v

theorem untouched_pcLoad : Untouched s (s.pcLoad v) := ⟨rfl, rfl, fun _ => rfl, rfl⟩

end JumpTo

/-- Settles O24: with an index below 32 `pc` is loaded from the register, and nothing else is written. -/
theorem jmpCompletes : Obligations.JmpCompletes := fun s _ hr =>
  ⟨_, exec_jmp_of_lt s hr, toNat_pc_pcLoad_of_nonneg s _, maxLen_le_pc_pcLoad_of_neg s _,
    regsKept_pcLoad s _, rfl, untouched_pcLoad s _⟩

/-- Settles O41: the counter the JMP loads is at or past `LEN`, so the next step is the end check, which
writes the status only. -/
theorem jumpPastEndEndsRun : Obligations.JumpPastEndEndsRun := by
  intro s r hr running fits past
  have target : s.prog.len ≤ (s.pcLoad (s.rfRead ⟨r.toNat, hr⟩)).pc.toNat := by
    rw [State.pcLoad_pc]
    exact le_toNat_of_past_end fits past
  exact ⟨_, _, exec_jmp_of_lt s hr, stepWith_of_past_end running target, rfl, rfl,
    fun _ => rfl, rfl, rfl, rfl⟩

/-! ## A step at the opcode byte of JMP -/

section StepAtJmp

variable {s : State} (running : s.status = .running) (opcode : s.prog.read s.pc.toNat = some 0x06)
include running opcode

theorem step_jmp_of_no_operand (missing : s.prog.read (s.pc.toNat + 1) = none) :
    step s = .next (s.raiseFault .fetchOutOfBounds) := by
  refine step_of_operands_error running opcode (e := .fetchOutOfBounds) ?_
  rw [Memory.window_nil missing]
  rfl

theorem step_jmp_of_operand {r : Byte} (operand : s.prog.read (s.pc.toNat + 1) = some r) :
    step s = exec (.jmp r) s := by
  have reads : ∀ k, k < (encode (.jmp r)).length →
      s.prog.read (s.pc.toNat + k) = (encode (.jmp r))[k]?
    | 0, _ => opcode
    | 1, _ => operand
  exact stepRunsEncodedInstruction s (.jmp r) rfl running reads

end StepAtJmp

/-- Settles O14, clause by clause: without its operand the JMP is cut short; with it the step executes the
JMP, which looks at the index first (R74). -/
theorem jmpStep : Obligations.JmpStep := by
  intro s running fits opcode
  obtain ⟨t, ht⟩ := step_answers s
  refine ⟨t, ht, fun missing => ?_, fun r operand => ?_⟩
  · exact faultEntry_of_step ht (step_jmp_of_no_operand running opcode missing)
  · have executed := step_jmp_of_operand running opcode operand
    refine ⟨fun bad => ?_, fun hr => ?_⟩
    · have named : ∃ b ∈ indexOperands (.jmp r), 32 ≤ b.toNat := ⟨r, List.mem_singleton_self r, bad⟩
      exact faultEntry_of_step ht (executed.trans (exec_of_bad_index s named))
    · cases ht.symm.trans (executed.trans (exec_jmp_of_lt s hr))
      exact ⟨toNat_pc_pcLoad_of_nonneg s _, fun neg => fits.trans (maxLen_le_pc_pcLoad_of_neg s _ neg),
        regsKept_pcLoad s _, rfl, untouched_pcLoad s _⟩

end Sys2Proof.Machine
end

section
/-! PROOFS. The family of 43_arithmetic.md: what the `alu` answers, the frame of ADD, SUB, MUL and DIV, their encoding,
and their exceptions in their order. -/

namespace Sys2Proof

/-- Bytes too few for format RRR are all index operands, looked at before the missing one (R74). -/
theorem decodeRRR_of_short (mk : Byte → Byte → Byte → Instr) :
    ∀ {bs : List Byte}, bs.length < 3 → decodeRRR mk bs = .error (cutShort bs)
  | [], _ | [_], _ | [_, _], _ => rfl

end Sys2Proof

namespace Sys2Proof.Machine

/-! ## What the `alu` answers for DIV -/

section Division

variable {va vb : Word}

theorem alu_div_of_zero (va : Word) (zero : vb.toInt = 0) :
    alu .div va vb = .error .divisionByZero := by
  rw [alu_div, if_pos zero]

theorem alu_div_of_overflow (least : va.toInt = -2147483648) (minusOne : vb.toInt = -1) :
    alu .div va vb = .error .divisionOverflow := by
  have nonzero : ¬ s32 vb = 0 := by rw [s32, minusOne]; decide
  rw [alu_div, if_neg nonzero, if_pos ⟨least, minusOne⟩]

/-- The quotient's pattern is the library's signed quotient, also where it overflows. -/
theorem wrap32_divQuotient (va vb : Word) : wrap32 (divQuotient va.toInt vb.toInt) = va.sdiv vb := by
  apply BitVec.eq_of_toInt_eq
  rw [wrap32, BitVec.toInt_ofInt, BitVec.toInt_sdiv, divQuotient]

theorem wrap32_divRemainder (va vb : Word) : wrap32 (divRemainder va.toInt vb.toInt) = va.srem vb := by
  rw [divRemainder_eq, ← BitVec.toInt_srem, wrap32, BitVec.ofInt_toInt]

theorem alu_div_of_quotient (nonzero : vb.toInt ≠ 0)
    (fits : ¬ (va.toInt = -2147483648 ∧ vb.toInt = -1)) :
    alu .div va vb = .ok ⟨va.sdiv vb, some (va.srem vb)⟩ := by
  rw [alu_div, if_neg nonzero, if_neg fits, wrap32_divQuotient, wrap32_divRemainder]

/-- Off `INT_MIN / -1` the quotient fits 32 signed bits (R94). -/
theorem toInt_sdiv_of_fits (fits : ¬ (va.toInt = -2147483648 ∧ vb.toInt = -1)) :
    (va.sdiv vb).toInt = va.toInt.tdiv vb.toInt := by
  refine BitVec.toInt_sdiv_of_ne_or_ne va vb (not_and_or.mp fun ⟨least, minusOne⟩ => fits ?_)
  subst least minusOne
  decide

/-- A remainder of truncating division is zero or of the dividend's sign (R95). -/
theorem tmod_sign (n m : Int) :
    n.tmod m = 0 ∨ (0 < n.tmod m ∧ 0 < n) ∨ (n.tmod m < 0 ∧ n < 0) := by
  by_cases divides : m ∣ n
  · exact .inl (Int.tmod_eq_zero_of_dvd divides)
  · have sameSign : (n.tmod m).sign = n.sign := by rw [Int.sign_tmod, if_neg divides]
    obtain negative | rfl | positive := lt_trichotomy n 0
    · rw [Int.sign_eq_neg_one_of_neg negative, Int.sign_eq_neg_one_iff_neg] at sameSign
      exact .inr (.inr ⟨sameSign, negative⟩)
    · exact .inl (Int.zero_tmod m)
    · rw [Int.sign_eq_one_of_pos positive, Int.sign_eq_one_iff_pos] at sameSign
      exact .inr (.inl ⟨sameSign, positive⟩)

end Division

/-! ## The instruction of each operator -/

/-- The symbolic opcode of an operator (45_blocks_and_host_interface.md R112). -/
def AluOp.opcode : AluOp → Opcode
  | .add => .add
  | .sub => .sub
  | .mul => .mul
  | .div => .div

/-- The instruction of an operator: first source, second source, destination. -/
def AluOp.instr : AluOp → Byte → Byte → Byte → Instr
  | .add => .add
  | .sub => .sub
  | .mul => .mul
  | .div => .div

section Operator

variable (op : AluOp) (a b d : Byte)

theorem exec_instr (s : State) : exec (op.instr a b d) s = execBinop op a b d s := by
  cases op <;> rfl

theorem indexOperands_instr : indexOperands (op.instr a b d) = [a, b, d] := by
  cases op <;> rfl

theorem decodeOperands_opcode (byte : Byte) (bs : List Byte) :
    decodeOperands op.opcode byte bs = decodeRRR op.instr bs := by
  cases op <;> rfl

end Operator

/-! ## What executing them does -/

/-- What is left of an operator's instruction once its operands are fetched: the fault the `alu` names, or
its results written and `pc` advanced (R88). -/
def State.applyAlu (s : State) (op : AluOp) (va vb : Word) (d : Fin 32) : State :=
  match alu op va vb with
  | .error c => s.raiseFault c
  | .ok out => (s.writeResult d out).pcAdvance 4

theorem exec_instr_of_lt (op : AluOp) {a b d : Byte} (s : State) (ha : a.toNat < 32)
    (hb : b.toNat < 32) (hd : d.toNat < 32) :
    exec (op.instr a b d) s =
      .next (s.applyAlu op (s.rfRead ⟨a.toNat, ha⟩) (s.rfRead ⟨b.toNat, hb⟩) ⟨d.toNat, hd⟩) := by
  simp only [exec_instr, execBinop, sourceOperand_of_lt ha, sourceOperand_of_lt hb,
    destOperand_of_lt hd, State.applyAlu]
  cases alu op (s.rfRead ⟨a.toNat, ha⟩) (s.rfRead ⟨b.toNat, hb⟩) <;> rfl

section ApplyAlu

variable {op : AluOp} {va vb : Word} (s : State) (d : Fin 32)

theorem applyAlu_of_error {c : FaultCause} (refused : alu op va vb = .error c) :
    s.applyAlu op va vb d = s.raiseFault c := by
  rw [State.applyAlu, refused]

theorem applyAlu_of_word {v : Word} (answers : alu op va vb = .ok ⟨v, none⟩) :
    s.applyAlu op va vb d = (s.rfWrite d v).pcAdvance 4 := by
  rw [State.applyAlu, answers]
  rfl

theorem applyAlu_of_both {q r : Word} (answers : alu op va vb = .ok ⟨q, some r⟩) :
    s.applyAlu op va vb d = ((s.rfWrite d q).rfWriteRem r).pcAdvance 4 := by
  rw [State.applyAlu, answers]
  rfl

end ApplyAlu

section WriteBothThenAdvance

variable (s : State) (d : Fin 32) (q r : Word) (n : Nat)

theorem rfRead_write_both_advance :
    (((s.rfWrite d q).rfWriteRem r).pcAdvance n).rfRead d = q := by simp

theorem regsKeptBut_write_both_advance :
    RegsKeptBut d s (((s.rfWrite d q).rfWriteRem r).pcAdvance n) := fun i hi => by
  simp [hi.symm]

theorem untouched_write_both_advance :
    Untouched s (((s.rfWrite d q).rfWriteRem r).pcAdvance n) :=
  ⟨rfl, rfl, fun _ => rfl, rfl⟩

end WriteBothThenAdvance

/-- Settles O22: each of the three writes what the `alu` answers, which is the result of unsigned words, and
advances `pc`. -/
theorem addSubMulComplete : Obligations.AddSubMulComplete := by
  intro s a b d ha hb hd i v mem
  have executed : exec i s = .next ((s.rfWrite ⟨d.toNat, hd⟩ v).pcAdvance 4) := by
    simp only [List.mem_cons, List.not_mem_nil, or_false, Prod.mk.injEq] at mem
    obtain ⟨rfl, rfl⟩ | ⟨rfl, rfl⟩ | ⟨rfl, rfl⟩ := mem
    · rw [← aluAdd_eq, ← applyAlu_of_word s _ (alu_add _ _)]
      exact exec_instr_of_lt .add s ha hb hd
    · rw [← aluSub_eq, ← applyAlu_of_word s _ (alu_sub _ _)]
      exact exec_instr_of_lt .sub s ha hb hd
    · rw [← aluMul_eq, ← applyAlu_of_word s _ (alu_mul _ _)]
      exact exec_instr_of_lt .mul s ha hb hd
  exact ⟨_, executed, rfRead_write_advance s _ v 4, regsKeptBut_write_advance s _ v 4, rfl, rfl,
    untouched_write_advance s _ v 4⟩

/-- Settles O23: quotient and remainder are written as the patterns of the library's signed division. -/
theorem divCompletes : Obligations.DivCompletes := by
  intro s a b d ha hb hd nonzero fits
  refine ⟨_, exec_instr_of_lt .div s ha hb hd, ?_⟩
  rw [applyAlu_of_both s _ (alu_div_of_quotient nonzero fits)]
  refine ⟨?_, BitVec.toInt_srem _ _, regsKeptBut_write_both_advance s _ _ _ 4, rfl,
    untouched_write_both_advance s _ _ _ 4⟩
  rw [rfRead_write_both_advance, toInt_sdiv_of_fits fits]

/-- Settles O27: the `alu` looks at the divisor first, so the dividend does not matter (R139). -/
theorem divisionByZeroFaults : Obligations.DivisionByZeroFaults := by
  intro s a b d hb ha hd zero
  refine ⟨_, exec_instr_of_lt .div s ha hb hd, ?_⟩
  rw [applyAlu_of_error s _ (alu_div_of_zero _ zero)]
  exact faultEntry_raiseFault s _

/-- Settles O28: a divisor of -1 passes the first check. -/
theorem divisionOverflowFaults : Obligations.DivisionOverflowFaults := by
  intro s a b d ha hb hd least minusOne
  refine ⟨_, exec_instr_of_lt .div s ha hb hd, ?_⟩
  rw [applyAlu_of_error s _ (alu_div_of_overflow least minusOne)]
  exact faultEntry_raiseFault s _

/-- Settles O29: O22 and O23 let the operands coincide, and a nonzero value divided by itself is no fault
case. -/
theorem sameRegisterOperands : Obligations.SameRegisterOperands := by
  rintro s r hr v rfl
  have completes := addSubMulComplete s r r r hr hr hr
  refine ⟨?_, ?_, ?_, fun nonzero => ?_⟩
  · obtain ⟨t, ht, doubled, -⟩ := completes _ _ (.head _)
    exact ⟨t, ht, doubled.trans BitVec.two_mul.symm⟩
  · obtain ⟨t, ht, cancelled, -⟩ := completes _ _ (.tail _ (.head _))
    exact ⟨t, ht, cancelled.trans (BitVec.sub_self _)⟩
  · obtain ⟨t, ht, squared, -⟩ := completes _ _ (.tail _ (.tail _ (.head _)))
    exact ⟨t, ht, squared⟩
  · have nonzero' : (s.rfRead ⟨r.toNat, hr⟩).toInt ≠ 0 := mt s32_eq_zero.mp nonzero
    obtain ⟨t, ht, quotient, remainder, -⟩ := divCompletes s r r r hr hr hr nonzero' (by omega)
    rw [Int.tdiv_self nonzero'] at quotient
    rw [Int.tmod_self] at remainder
    exact ⟨t, ht, BitVec.eq_of_toInt_eq quotient, BitVec.eq_of_toInt_eq remainder⟩

/-! ## A step at an operator's opcode byte -/

theorem Memory.length_window_le_count (m : Memory) (a n : Nat) : (m.window a n).length ≤ n := by
  rw [← m.take_window a n n le_rfl]
  exact List.length_take_le n _

section StepAtOperator

variable {op : AluOp} {s : State} (running : s.status = .running)
  (opcode : s.prog.read s.pc.toNat = some (defaultByte op.opcode))
include running opcode

theorem step_operator_of_short (short : (s.prog.window (s.pc.toNat + 1) 3).length < 3) :
    step s =
      .next (s.raiseFault (fetchFault (cutShort (s.prog.window (s.pc.toNat + 1) 3)))) := by
  refine step_of_operands_error running opcode ?_
  rw [defaultOpmap_defaultByte, decodeOperands_opcode, decodeRRR_of_short _ short]

theorem step_operator_of_short_in_range {seen : List Byte}
    (fetched : s.prog.window (s.pc.toNat + 1) 3 = seen) (short : seen.length < 3)
    (inRange : ∀ b ∈ seen, b.toNat < 32) : step s = .next (s.raiseFault .fetchOutOfBounds) := by
  subst fetched
  rw [step_operator_of_short running opcode short, cutShort_of_in_range inRange]
  rfl

theorem step_operator_of_whole {a b d : Byte}
    (fetched : s.prog.window (s.pc.toNat + 1) 3 = [a, b, d]) : step s = exec (op.instr a b d) s := by
  rw [step_at running opcode, defaultOpmap_defaultByte, decodeOperands_opcode, fetched]
  rfl

/-- A bad index among the bytes fetched faults, whether or not the instruction is cut short after it: the
decoder looks at it in the one case and the execution in the other (R74). -/
theorem step_operator_of_bad_index {k : Nat} (hk : k < 3) {r : Byte}
    (operand : s.prog.read (s.pc.toNat + 1 + k) = some r) (bad : 32 ≤ r.toNat) :
    step s = .next (s.raiseFault .registerIndexOutOfRange) := by
  have mem : r ∈ s.prog.window (s.pc.toNat + 1) 3 :=
    List.mem_of_getElem? ((s.prog.getElem?_window _ 3 k hk).trans operand)
  by_cases short : (s.prog.window (s.pc.toNat + 1) 3).length < 3
  · rw [step_operator_of_short running opcode short, cutShort_of_bad_index ⟨r, mem, bad⟩]
    rfl
  · obtain ⟨a, b, d, fetched⟩ : ∃ a b d, s.prog.window (s.pc.toNat + 1) 3 = [a, b, d] :=
      List.length_eq_three.mp
        (Nat.le_antisymm (s.prog.length_window_le_count _ 3) (Nat.le_of_not_lt short))
    rw [step_operator_of_whole running opcode fetched]
    refine exec_of_bad_index s ⟨r, ?_, bad⟩
    rwa [indexOperands_instr, ← fetched]

end StepAtOperator

/-- The encoding and the exceptions of all four, in their order: whatever effect `applyAlu` has on fetched
operands is that of the step. -/
theorem binopStep_of_applyAlu (op : AluOp) {effect : Word → Word → Fin 32 → State → State → Prop}
    (applies : ∀ (s : State) (va vb : Word) (d : Fin 32), s.pc.toNat < Config.maxLen →
      effect va vb d s (s.applyAlu op va vb d)) :
    BinopStep (defaultByte op.opcode) effect := by
  intro s running fits opcode
  have hpc : s.pc.toNat < Config.maxLen := Nat.lt_of_lt_of_le (Memory.lt_of_read opcode) fits
  obtain ⟨t, ht⟩ := step_answers s
  refine ⟨t, ht, fun missing => ?_, fun a ra => ⟨fun bad => ?_, fun ha => ⟨fun missing => ?_,
    fun b rb => ⟨fun bad => ?_, fun hb => ⟨fun missing => ?_, fun d rd => ⟨fun bad => ?_,
      fun hd => ?_⟩⟩⟩⟩⟩⟩
  · exact faultEntry_of_step ht (step_operator_of_short_in_range running opcode
      (Memory.window_nil missing 3) (by decide) (by simp))
  · exact faultEntry_of_step ht
      (step_operator_of_bad_index running opcode (k := 0) (by decide) ra bad)
  · have fetched : s.prog.window (s.pc.toNat + 1) 3 = [a] := by
      rw [Memory.window_succ ra, Memory.window_nil missing]
    exact faultEntry_of_step ht (step_operator_of_short_in_range running opcode fetched
      (by simp) (by simp [ha]))
  · exact faultEntry_of_step ht
      (step_operator_of_bad_index running opcode (k := 1) (by decide) rb bad)
  · have fetched : s.prog.window (s.pc.toNat + 1) 3 = [a, b] := by
      rw [Memory.window_succ ra, Memory.window_succ rb, Memory.window_nil missing]
    exact faultEntry_of_step ht (step_operator_of_short_in_range running opcode fetched
      (by simp) (by simp [ha, hb]))
  · exact faultEntry_of_step ht
      (step_operator_of_bad_index running opcode (k := 2) (by decide) rd bad)
  · have fetched : s.prog.window (s.pc.toNat + 1) 3 = [a, b, d] := by
      rw [Memory.window_succ ra, Memory.window_succ rb, Memory.window_succ rd]
      rfl
    have executed := step_operator_of_whole running opcode fetched
    cases ht.symm.trans (executed.trans (exec_instr_of_lt op s ha hb hd))
    exact applies s _ _ _ hpc

/-- An operator whose `alu` result is the pattern of an integer wraps (R89 to R91). -/
theorem binopStep_of_wrap32 (op : AluOp) {f : Int → Int → Int}
    (answers : ∀ va vb, alu op va vb = .ok ⟨wrap32 (f (s32 va) (s32 vb)), none⟩) :
    BinopStep (defaultByte op.opcode) (WrapEffect f) := by
  refine binopStep_of_applyAlu op fun s va vb d hpc => ?_
  rw [applyAlu_of_word s d (answers va vb)]
  refine ⟨?_, regsKeptBut_write_advance s d _ 4, rfl, toNat_pc_advance hpc le_rfl,
    untouched_write_advance s d _ 4⟩
  rw [rfRead_write_advance, toNat_wrap32]

/-- Settles O15, the operator + of `binopStep_of_wrap32`. -/
theorem addStep : Obligations.AddStep := binopStep_of_wrap32 .add alu_add

/-- Settles O16, the operator - of `binopStep_of_wrap32`. -/
theorem subStep : Obligations.SubStep := binopStep_of_wrap32 .sub alu_sub

/-- Settles O17, the operator * of `binopStep_of_wrap32`. -/
theorem mulStep : Obligations.MulStep := binopStep_of_wrap32 .mul alu_mul

/-- DIV's two faults, or the quotient with the remainder that makes it the truncated one. -/
theorem divEffect_applyAlu {s : State} (va vb : Word) (d : Fin 32)
    (hpc : s.pc.toNat < Config.maxLen) : DivEffect va vb d s (s.applyAlu .div va vb d) := by
  refine ⟨fun zero => ?_, fun least minusOne => ?_, fun nonzero fits => ?_⟩
  · rw [applyAlu_of_error s d (alu_div_of_zero va zero)]
    exact faultEntry_raiseFault s _
  · rw [applyAlu_of_error s d (alu_div_of_overflow least minusOne)]
    exact faultEntry_raiseFault s _
  · rw [applyAlu_of_both s d (alu_div_of_quotient nonzero fits)]
    refine ⟨⟨va.toInt.tmod vb.toInt, ?_, ?_, tmod_sign _ _, ?_⟩,
      regsKeptBut_write_both_advance s d _ _ 4, toNat_pc_advance hpc le_rfl,
      untouched_write_both_advance s d _ _ 4⟩
    · rw [rfRead_write_both_advance, toInt_sdiv_of_fits fits, Int.tdiv_mul_add_tmod]
    · rw [Int.natAbs_tmod]
      exact Nat.mod_lt _ (Int.natAbs_pos.mpr nonzero)
    · rw [State.pcAdvance_rem, State.rfWriteRem_rem, ← wrap32_divRemainder, divRemainder_eq,
        toNat_wrap32]

/-- Settles O18: `divEffect_applyAlu`, with the encoding and operand faults all four operators share. -/
theorem divStep : Obligations.DivStep :=
  binopStep_of_applyAlu .div fun _ va vb d hpc => divEffect_applyAlu va vb d hpc

end Sys2Proof.Machine
end

section
/-! PROOFS. The family of 44_halt_illegal.md: that every opcode byte has its arm, that HLT and the illegal opcode halt
with their events, and that nothing else emits one. -/

namespace Sys2Proof

/-! ## The arm of an opcode byte -/

/-- The default map, byte by byte (R59). -/
theorem defaultOpmap_eq_ite : ∀ b : Byte, defaultOpmap b =
    if b = 0 then .load else if b = 1 then .add else if b = 2 then .sub else if b = 3 then .mul
    else if b = 4 then .div else if b = 5 then .hlt else if b = 6 then .jmp else .igl := by decide

theorem defaultOpmap_of_illegal_byte {b : Byte} (illegal : 7 ≤ b.toNat) : defaultOpmap b = .igl := by
  unfold defaultOpmap
  split
  case h_8 => rfl
  all_goals omega

/-- Three bytes are enough operands for every opcode, and the decoder takes as many as the length of the
opcode says (R47, R62). -/
theorem decodeWith_answers (om : OpMap) (b : Byte) : ∀ {bs : List Byte}, 3 ≤ bs.length →
    ∃ i, decodeWith om (b :: bs) = .ok (i, bs.drop (opcodeLength (om b) - 1))
  | _ :: _ :: _ :: _, _ => by
    rw [decodeWith_cons rfl]
    cases om b <;> exact ⟨_, rfl⟩

/-- An illegal instruction keeps the byte it was read from. -/
theorem opcodeOf_eq_igl_iff {om : OpMap} {b : Byte} {bs rest : List Byte} {i : Instr}
    (h : decodeWith om (b :: bs) = .ok (i, rest)) : opcodeOf i = .igl ↔ i = .igl b := by
  obtain ⟨bytes, -⟩ := encodeWith_of_decodeWith h
  cases i with
  | igl c =>
    obtain ⟨rfl, -⟩ := List.cons.inj bytes
    exact iff_of_true rfl rfl
  | load | add | sub | mul | div | hlt | jmp => exact iff_of_false nofun nofun

/-- Settles O6: the map gives the byte its opcode, whose operands the three bytes supply. -/
theorem everyOpcodeByteHasItsArm : Obligations.EveryOpcodeByteHasItsArm := by
  intro b rest enough
  obtain ⟨i, decodes⟩ := decodeWith_answers defaultOpmap b enough
  have op : opcodeOf i = defaultOpmap b := Machine.opcodeOf_decodeWith decodes
  rw [← op] at decodes
  exact ⟨i, decodes, op.trans (defaultOpmap_eq_ite b), opcodeOf_eq_igl_iff decodes⟩

end Sys2Proof

namespace Sys2Proof.Machine

/-! ## What HLT and IGL do -/

/-- What HLT and IGL share (R101, R102): the byte consumed, the event emitted, the machine halted. -/
def State.haltWith (s : State) (c : StopCause) (e : DiagEvent) : State :=
  ((s.pcAdvance 1).emit e).stop c

theorem exec_hlt (s : State) : exec .hlt s = .next (s.haltWith .hltInstruction .hlt) := rfl

theorem exec_igl (b : Byte) (s : State) :
    exec (.igl b) s = .next (s.haltWith .illegalOpcode .illegal) := rfl

/-- Settles O25: both halt by `State.haltWith`, which leaves the other fields alone. -/
theorem hltAndIglComplete : Obligations.HltAndIglComplete := by
  intro s b i c e mem
  have executes : exec i s = .next (s.haltWith c e) := by
    simp only [List.mem_cons, List.not_mem_nil, or_false, Prod.mk.injEq] at mem
    obtain ⟨rfl, rfl, rfl⟩ | ⟨rfl, rfl, rfl⟩ := mem
    · exact exec_hlt s
    · exact exec_igl b s
  exact ⟨_, executes, rfl, rfl, rfl, fun _ => rfl, rfl, rfl, fun _ => rfl⟩

/-! ## A step at the opcode byte of HLT, or at an illegal one -/

/-- A step that emits an event shows it. -/
theorem outputsOf_of_diag_append {s t : State} {e : DiagEvent} (emits : t.diag = s.diag ++ [e]) :
    outputsOf s t = ⟨continues t.status, faultOutput t.status, causeCode t.status, some e⟩ := by
  rw [outputsOf, emits, List.drop_left, List.head?_cons]

section StepHalts

variable {s : State} (running : s.status = .running)
include running

theorem step_at_hlt (opcode : s.prog.read s.pc.toNat = some 0x05) :
    step s = .next (s.haltWith .hltInstruction .hlt) := by
  rw [step_at running opcode]
  rfl

theorem step_at_illegal {b : Byte} (opcode : s.prog.read s.pc.toNat = some b)
    (illegal : 7 ≤ b.toNat) :
    step s = .next (s.haltWith .illegalOpcode .illegal) := by
  rw [step_at running opcode, defaultOpmap_of_illegal_byte illegal]
  rfl

end StepHalts

/-- Frame and outputs of a step that halts with an event; below `MAXLEN` the counter does not wrap. -/
theorem step_haltWith {s : State} {b : Byte} {c : StopCause} {e : DiagEvent}
    (fits : s.prog.len ≤ Config.maxLen) (opcode : s.prog.read s.pc.toNat = some b)
    (halts : step s = .next (s.haltWith c e)) :
    ∃ t, step s = .next t ∧ t.pc.toNat = s.pc.toNat + 1 ∧ t.status = .halted c ∧
      t.diag = s.diag ++ [e] ∧ RegsKept s t ∧ t.rem = s.rem ∧ t.prog = s.prog ∧
      (∀ k, t.prog.read k = s.prog.read k) ∧
      stepOutputs s = some ⟨false, false, causeCode (.halted c), some e⟩ := by
  have hpc : s.pc.toNat < Config.maxLen := Nat.lt_of_lt_of_le (Memory.lt_of_read opcode) fits
  refine ⟨_, halts, toNat_pc_advance hpc (by decide), rfl, rfl, fun _ => rfl, rfl, rfl,
    fun _ => rfl, ?_⟩
  rw [stepOutputs_of_step halts, outputsOf_of_diag_append rfl]
  rfl

/-- Settles O19. -/
theorem hltStep : Obligations.HltStep := fun _ running fits opcode =>
  step_haltWith fits opcode (step_at_hlt running opcode)

/-- Settles O20. -/
theorem iglStep : Obligations.IglStep := fun _ _ running fits opcode illegal =>
  step_haltWith fits opcode (step_at_illegal running opcode illegal)

/-! ## Events -/

/-- What a step at the opcode `o` (none past the end of the program) may do to the trace (R105): leave it, or
append the event of HLT or of IGL and halt. -/
def EmitsAtMost (o : Option Opcode) (s t : State) : Prop :=
  t.diag = s.diag ∨
    (t.diag = s.diag ++ [.hlt] ∧ o = some .hlt ∧ t.status = .halted .hltInstruction) ∨
    (t.diag = s.diag ++ [.illegal] ∧ o = some .igl ∧ t.status = .halted .illegalOpcode)

theorem exec_emitsAtMost {i : Instr} {s t : State} (h : exec i s = .next t) :
    EmitsAtMost (some (opcodeOf i)) s t := by
  obtain ⟨_, -, -, fault⟩ | ⟨_, _, -, write⟩ | ⟨_, _, _, -, divide⟩ | ⟨_, -, jump⟩ |
    ⟨hop, hlt⟩ | ⟨hop, igl⟩ := exec_cases i s
  · cases h.symm.trans fault
    exact .inl rfl
  · cases h.symm.trans write
    exact .inl rfl
  · cases h.symm.trans divide
    exact .inl rfl
  · cases h.symm.trans jump
    exact .inl rfl
  · cases h.symm.trans hlt
    exact .inr (.inl ⟨rfl, congrArg some hop, rfl⟩)
  · cases h.symm.trans igl
    exact .inr (.inr ⟨rfl, congrArg some hop, rfl⟩)

/-- Settles O36: the latch, the end check and a fault entry leave the trace; for an executed instruction it is
`exec_emitsAtMost`. -/
theorem eventsOnlyFromHltAndIgl : Obligations.EventsOnlyFromHltAndIgl := by
  intro om s t h
  change EmitsAtMost ((s.prog.read s.pc.toNat).map om) s t
  obtain ⟨-, latched⟩ | ⟨-, -, ended⟩ | ⟨_, -, -, -, cut⟩ | ⟨_, _, _, -, -, hb, -, hop, executed⟩ :=
    stepWith_cases om s
  · cases h.symm.trans latched
    exact .inl rfl
  · cases h.symm.trans ended
    exact .inl rfl
  · cases h.symm.trans cut
    exact .inl rfl
  · rw [hb, Option.map_some, ← hop]
    exact exec_emitsAtMost (executed.symm.trans h)

end Sys2Proof.Machine
end

section
/-! PROOFS. The family of 45_blocks_and_host_interface.md: what a program load does, that the host and every step keep the
invariant, the outputs of a step, and that neither `rem` nor the trace steers one. -/

namespace Sys2Proof.Machine

/-! ## Restarting -/

theorem restarted_of_isFaulted {s : State} (h : isFaulted s) : restarted s.status = s.status := by
  obtain ⟨c, hc⟩ := h
  rw [hc, restarted]

theorem restarted_of_not_isFaulted {s : State} (h : ¬ isFaulted s) :
    restarted s.status = .running := by
  cases hs : s.status with
  | running | halted => rfl
  | faulted c => exact absurd ⟨c, hs⟩ h

/-! ## Loading a program -/

/-- The state a program load leaves (R118). -/
def State.withProgram (s : State) (bs : List Byte) : State :=
  { s with prog := Memory.ofBytes bs, status := restarted s.status }

theorem hostLoadProgram_of_le {bs : List Byte} (s : State) (fits : bs.length ≤ Config.maxLen) :
    hostLoadProgram bs s = .next (s.withProgram bs) := if_pos fits

theorem hostLoadProgram_of_gt {bs : List Byte} (s : State) (tooLong : Config.maxLen < bs.length) :
    hostLoadProgram bs s = .refused .programTooLong := if_neg (Nat.not_le.mpr tooLong)

/-- Settles O44: the loaded buffer reads as the bytes, and the status is `restarted`'s. -/
theorem hostLoadProgramRule : Obligations.HostLoadProgramRule := fun bs s =>
  ⟨fun fits => ⟨_, hostLoadProgram_of_le s fits, Memory.len_ofBytes bs, Memory.read_ofBytes bs,
      fun _ => rfl, rfl, rfl, rfl, restarted_of_isFaulted, restarted_of_not_isFaulted⟩,
    hostLoadProgram_of_gt s⟩

/-! ## The host keeps the invariant -/

/-- A restarted machine runs or is faulted, so it owes no reason for halting. -/
theorem haltSound_of_restarted {om : OpMap} {s t : State} (h : t.status = restarted s.status) :
    HaltSound om t := by
  by_cases hf : isFaulted s
  · have same : t.status = s.status := h.trans (restarted_of_isFaulted hf)
    exact haltSound_of_isFaulted (hf.imp fun _ => same.trans)
  · exact haltSound_of_running (h.trans (restarted_of_not_isFaulted hf))

/-- A reset that is not refused leaves the reset state with an admitted buffer, `INIT_PROG` where none is
supplied. -/
theorem eq_of_hostReset {bytes : Option (List Byte)} {s t : State}
    (h : hostReset bytes s = .next t) :
    ∃ bs, bs.length ≤ Config.maxLen ∧
      t = { State.reset with prog := Memory.ofBytes bs, draws := s.draws } := by
  cases bytes with
  | none =>
    cases h
    exact ⟨Config.initProg, Nat.zero_le _, rfl⟩
  | some bs =>
    rw [hostReset] at h
    split at h
    · rename_i fits
      cases h
      exact ⟨bs, fits, rfl⟩
    · cases h

theorem hostReset_inv {om : OpMap} {bytes : Option (List Byte)} {s t : State}
    (h : hostReset bytes s = .next t) : Inv om t := by
  obtain ⟨bs, fits, rfl⟩ := eq_of_hostReset h
  exact ⟨Memory.wf_ofBytes bs, fits, haltSound_of_running rfl⟩

theorem hostLoadProgram_inv {om : OpMap} {bs : List Byte} {s t : State}
    (h : hostLoadProgram bs s = .next t) : Inv om t := by
  by_cases fits : bs.length ≤ Config.maxLen
  · cases h.symm.trans (hostLoadProgram_of_le s fits)
    exact ⟨Memory.wf_ofBytes bs, fits, haltSound_of_restarted rfl⟩
  · cases h.symm.trans (hostLoadProgram_of_gt s (Nat.lt_of_not_le fits))

/-- The two loads establish the invariant; a write of registers touches nothing it speaks of, and setting
the counter restarts the machine. -/
theorem hostDo_inv {om : OpMap} {op : HostOp} {s t : State} (inv : Inv om s)
    (h : hostDo op s = .next t) : Inv om t := by
  cases op with
  | reset bytes => exact hostReset_inv h
  | loadProgram bs => exact hostLoadProgram_inv h
  | setRegister | setRegisters =>
    cases h
    exact ⟨inv.memWf, inv.lenOk, inv.haltSound⟩
  | setPC v =>
    cases h
    exact ⟨inv.memWf, inv.lenOk, haltSound_of_restarted rfl⟩

/-- Settles O31. -/
theorem anyMapAndHostKeepInvariant : Obligations.AnyMapAndHostKeepInvariant :=
  ⟨fun _ _ _ => stepWith_inv, fun _ _ _ _ => hostDo_inv⟩

/-- Settles O32, by induction on how the state is reached. -/
theorem reachableStatesMeetInvariant : Obligations.ReachableStatesMeetInvariant := by
  intro s reached
  induction reached with
  | reset => exact resetMeetsInvariant defaultOpmap
  | step _ h inv => exact stepWith_inv inv h
  | host op _ h inv => exact hostDo_inv inv h

/-! ## The outputs of a step -/

theorem faultOutput_iff {s : State} : faultOutput s.status = true ↔ isFaulted s := by
  rw [isFaulted]
  cases s.status <;> simp [faultOutput]

/-- The statuses in the order of their cause codes (60_exceptions.md R129). -/
def statusesByCause : List Status :=
  [.running, .halted .endOfProgram, .halted .hltInstruction, .halted .illegalOpcode,
    .faulted .fetchOutOfBounds, .faulted .registerIndexOutOfRange, .faulted .divisionByZero,
    .faulted .divisionOverflow]

theorem statusesByCause_causeCode (st : Status) : statusesByCause[causeCode st]? = some st := by
  cases st with
  | running => rfl
  | halted c => cases c <;> rfl
  | faulted c => cases c <;> rfl

/-- A step emits one event at most, so the first one beyond the trace before it is all it emitted. -/
theorem diag_eq_append_diagEvent {s t : State} (h : step s = .next t) :
    t.diag = s.diag ++ (outputsOf s t).diagEvent.toList := by
  obtain silent | ⟨emits, -⟩ | ⟨emits, -⟩ := eventsOnlyFromHltAndIgl defaultOpmap s t h
  · rw [outputsOf_of_diag_eq silent, silent, Option.toList_none, List.append_nil]
  · rw [outputsOf_of_diag_append emits, emits, Option.toList_some]
  · rw [outputsOf_of_diag_append emits, emits, Option.toList_some]

/-- Settles O39. -/
theorem outputsSayTheOutcome : Obligations.OutputsSayTheOutcome := fun _ t h =>
  ⟨_, stepOutputs_of_step h, continues_iff, faultOutput_iff, statusesByCause_causeCode t.status,
    diag_eq_append_diagEvent h⟩

/-! ## What `rem` and the trace steer -/

/-- The state with other values in `rem` and in the trace. -/
def State.withRemDiag (s : State) (r : Word) (ds : List DiagEvent) : State :=
  { s with rem := r, diag := ds }

/-- The states agree on status and buffer and, short of a fault, on registers and `pc`, which are unspecified
after one (60_exceptions.md R137). -/
def Alike (t t' : State) : Prop :=
  t'.status = t.status ∧ t'.prog = t.prog ∧ (¬ isFaulted t → RegsKept t t' ∧ t'.pc = t.pc)

theorem alike_withRemDiag (t : State) (r : Word) (ds : List DiagEvent) :
    Alike t (t.withRemDiag r ds) := ⟨rfl, rfl, fun _ => ⟨fun _ => rfl, rfl⟩⟩

theorem alike_raiseFault (s : State) (r : Word) (ds : List DiagEvent) (c : FaultCause) :
    Alike (s.raiseFault c) ((s.withRemDiag r ds).raiseFault c) :=
  ⟨rfl, rfl, fun hf => absurd (isFaulted_raiseFault s c) hf⟩

/-- The writes of an operator's instruction overwrite or keep the other `rem`; either way the states stay
alike. -/
theorem alike_applyAlu (s : State) (r : Word) (ds : List DiagEvent) (op : AluOp) (va vb : Word)
    (d : Fin 32) : Alike (s.applyAlu op va vb d) ((s.withRemDiag r ds).applyAlu op va vb d) := by
  cases answer : alu op va vb with
  | error c =>
    rw [applyAlu_of_error s d answer, applyAlu_of_error _ d answer]
    exact alike_raiseFault s r ds c
  | ok out =>
    obtain ⟨v, _ | w⟩ := out
    · rw [applyAlu_of_word s d answer, applyAlu_of_word _ d answer]
      exact alike_withRemDiag _ r ds
    · rw [applyAlu_of_both s d answer, applyAlu_of_both _ d answer]
      exact alike_withRemDiag _ w ds

/-- Both outcomes are next states, and these are alike. -/
def AlikeNext (o o' : Out) : Prop := ∃ t t', o = .next t ∧ o' = .next t' ∧ Alike t t'

section RemDiag

variable (s : State) (r : Word) (ds : List DiagEvent)

theorem exec_operator_alikeNext (op : AluOp) {a b d : Byte}
    (inRange : ∀ x ∈ [a, b, d], x.toNat < 32) :
    AlikeNext (exec (op.instr a b d) s) (exec (op.instr a b d) (s.withRemDiag r ds)) := by
  have ha : a.toNat < 32 := inRange a (by simp)
  have hb : b.toNat < 32 := inRange b (by simp)
  have hd : d.toNat < 32 := inRange d (by simp)
  exact ⟨_, _, exec_instr_of_lt op s ha hb hd, exec_instr_of_lt op _ ha hb hd,
    alike_applyAlu s r ds op _ _ _⟩

/-- An instruction faults on its own indices or on the values of `x`, and what it writes to `x` and `pc` it
takes from its operands, `x` and `pc` (R17, R125). -/
theorem exec_alikeNext (i : Instr) : AlikeNext (exec i s) (exec i (s.withRemDiag r ds)) := by
  by_cases bad : ∃ b ∈ indexOperands i, 32 ≤ b.toNat
  · exact ⟨_, _, exec_of_bad_index s bad, exec_of_bad_index _ bad, alike_raiseFault s r ds _⟩
  have inRange : ∀ b ∈ indexOperands i, b.toNat < 32 := by simpa using bad
  cases i with
  | load d imm =>
    have hd : d.toNat < 32 := inRange d (List.mem_singleton_self d)
    exact ⟨_, _, exec_load_of_lt imm s hd, exec_load_of_lt imm _ hd, alike_withRemDiag _ r ds⟩
  | add a b d => exact exec_operator_alikeNext s r ds .add inRange
  | sub a b d => exact exec_operator_alikeNext s r ds .sub inRange
  | mul a b d => exact exec_operator_alikeNext s r ds .mul inRange
  | div a b d => exact exec_operator_alikeNext s r ds .div inRange
  | jmp x =>
    have hx : x.toNat < 32 := inRange x (List.mem_singleton_self x)
    exact ⟨_, _, exec_jmp_of_lt s hx, exec_jmp_of_lt _ hx, alike_withRemDiag _ r ds⟩
  | hlt => exact ⟨_, _, exec_hlt s, exec_hlt _, alike_withRemDiag _ r (ds ++ [.hlt])⟩
  | igl b => exact ⟨_, _, exec_igl b s, exec_igl b _, alike_withRemDiag _ r (ds ++ [.illegal])⟩

end RemDiag

/-- An instruction cut short by the end of the buffer enters its fault (R33, R74). -/
theorem stepWith_of_cutShort {om : OpMap} {s : State} {e : DecodeError}
    (running : s.status = .running) (inside : s.pc.toNat < s.prog.len)
    (cut : decodeWith om s.fetchWindow = .error e) :
    stepWith om s = .next (s.raiseFault (fetchFault e)) := by
  obtain ⟨stopped, -⟩ | ⟨-, past, -⟩ | ⟨_, -, -, hd, faulted⟩ | ⟨_, _, _, -, -, -, hd, -⟩ :=
    stepWith_cases om s
  · exact absurd running stopped
  · exact absurd inside (Nat.not_lt.mpr past)
  · cases cut.symm.trans hd
    exact faulted
  · cases cut.symm.trans hd

/-- Latch, end check and decoding look at status, `pc` and buffer, which the two states share. -/
theorem stepWith_alikeNext (om : OpMap) (s : State) (r : Word) (ds : List DiagEvent) :
    AlikeNext (stepWith om s) (stepWith om (s.withRemDiag r ds)) := by
  obtain ⟨stopped, latched⟩ | ⟨running, past, ended⟩ | ⟨e, running, inside, cut, faulted⟩ |
    ⟨_, i, _, running, inside, -, decodes, -, executed⟩ := stepWith_cases om s
  · exact ⟨_, _, latched, stepWith_of_stopped (s := s.withRemDiag r ds) stopped,
      alike_withRemDiag s r ds⟩
  · exact ⟨_, _, ended, stepWith_of_past_end (s := s.withRemDiag r ds) running past,
      alike_withRemDiag _ r ds⟩
  · exact ⟨_, _, faulted, stepWith_of_cutShort (s := s.withRemDiag r ds) running inside cut,
      alike_raiseFault s r ds _⟩
  · rw [executed, stepWith_eq_exec (s := s.withRemDiag r ds) running inside decodes]
    exact exec_alikeNext s r ds i

/-- Settles O43. -/
theorem remAndDiagSteerNothing : Obligations.RemAndDiagSteerNothing := by
  intro om s t r ds h
  obtain ⟨u, t', hu, answers, alike⟩ := stepWith_alikeNext om s r ds
  cases h.symm.trans hu
  exact ⟨t', answers, alike⟩

end Sys2Proof.Machine
end

section
/-! PROOFS. The family of 60_exceptions.md: that only a reset takes a machine out of Faulted. -/

namespace Sys2Proof.Machine

theorem hostLoadProgram_status {bs : List Byte} {s t : State} (h : hostLoadProgram bs s = .next t) :
    t.status = restarted s.status := by
  by_cases fits : bs.length ≤ Config.maxLen
  · cases h.symm.trans (hostLoadProgram_of_le s fits)
    rfl
  · cases h.symm.trans (hostLoadProgram_of_gt s (Nat.lt_of_not_le fits))

/-- What a host operation does to the status: only a reset sets it outright (R77, R118 to R122). -/
theorem hostDo_status {op : HostOp} {s t : State} (h : hostDo op s = .next t) :
    (∃ bytes, op = .reset bytes) ∨ t.status = s.status ∨ t.status = restarted s.status := by
  cases op with
  | reset bytes => exact .inl ⟨bytes, rfl⟩
  | loadProgram bs => exact .inr (.inr (hostLoadProgram_status h))
  | setRegister | setRegisters =>
    cases h
    exact .inr (.inl rfl)
  | setPC v =>
    cases h
    exact .inr (.inr rfl)

theorem hostDo_keeps_faulted {op : HostOp} {s t : State} (faulted : isFaulted s)
    (h : hostDo op s = .next t) : (∃ bytes, op = .reset bytes) ∨ t.status = s.status := by
  obtain reset | kept | restart := hostDo_status h
  · exact .inl reset
  · exact .inr kept
  · exact .inr (restart.trans (restarted_of_isFaulted faulted))

/-- Settles O48: the latch holds a faulted machine at every step, and a restart leaves the status of a
faulted machine (R137). -/
theorem faultedLeftOnlyByReset : Obligations.FaultedLeftOnlyByReset := by
  intro s t c faulted
  constructor
  · intro om h
    have stopped : s.status ≠ .running := by simp [faulted]
    cases h.symm.trans (stepWith_of_stopped stopped)
    rfl
  · intro op h left
    exact (hostDo_keeps_faulted ⟨c, faulted⟩ h).resolve_right fun kept => left (kept.trans faulted)

end Sys2Proof.Machine
end

section
/-! PROOFS. The family of 70_reset_and_hazards.md and the host's writes: that a longer prefetch is unobservable, that the
written words decode, and what HostReset, HostSetRegister, HostSetRegisters and HostSetPC do. -/

namespace Sys2Proof

/-! ## How far the decoder looks -/

/-- No format has more than three operand bytes (R47): what an instruction is, or why it is cut short, is told
by the first three. -/
theorem decodeOperands_take_three (op : Opcode) (byte : Byte) : ∀ bs : List Byte,
    (decodeOperands op byte (bs.take 3)).map Prod.fst = (decodeOperands op byte bs).map Prod.fst
  | [] | [_] | [_, _] => rfl
  | _ :: _ :: _ :: _ => by cases op <;> rfl

theorem decodeWith_take_four (om : OpMap) : ∀ bs : List Byte,
    (decodeWith om (bs.take 4)).map Prod.fst = (decodeWith om bs).map Prod.fst
  | [] => rfl
  | b :: bs => decodeOperands_take_three (om b) b bs

/-- Settles O8: the four bytes a step looks at are the beginning of the longer window, and the decoder looks
no further. -/
theorem longerPrefetchDecodesAlike : Obligations.LongerPrefetchDecodesAlike := by
  intro om m a n longer
  rw [← decodeWith_take_four om (m.window a n), m.take_window a n 4 longer]

/-- Settles O3: six closed byte sequences, each decoded by evaluation. -/
theorem writtenWordsDecode : Obligations.WrittenWordsDecode :=
  ⟨rfl, rfl, rfl, rfl, rfl, rfl⟩

end Sys2Proof

namespace Sys2Proof.Machine

/-! ## Resetting -/

/-- The state a reset with a buffer leaves (R146): nothing of the state before but the model's own count. -/
def State.resetWith (s : State) (bs : List Byte) : State :=
  { State.reset with prog := Memory.ofBytes bs, draws := s.draws }

theorem rfRead_resetWith (s : State) (bs : List Byte) (i : Fin 32) :
    (s.resetWith bs).rfRead i = 0 := by
  obtain ⟨cleared, -⟩ := resetState
  exact cleared i

theorem hostReset_of_le {bytes : Option (List Byte)} (s : State)
    (fits : (bytes.getD []).length ≤ Config.maxLen) :
    hostReset bytes s = .next (s.resetWith (bytes.getD [])) := by
  cases bytes with
  | none => rfl
  | some bs => exact if_pos fits

theorem hostReset_of_gt {bs : List Byte} (s : State) (tooLong : Config.maxLen < bs.length) :
    hostReset (some bs) s = .refused .programTooLong := if_neg (Nat.not_le.mpr tooLong)

/-- Settles O47: the reset state holds zeros, and its buffer reads as the bytes supplied. -/
theorem hostResetRule : Obligations.HostResetRule :=
  ⟨fun _ s fits => ⟨_, hostReset_of_le s fits, rfRead_resetWith s _, rfl, rfl, rfl, rfl,
      Memory.len_ofBytes _, Memory.read_ofBytes _⟩,
    fun _ => hostReset_of_gt⟩

/-! ## The host's writes -/

theorem rfRead_rfWrite_same (s : State) (i : Fin 32) (v : Word) : (s.rfWrite i v).rfRead i = v := by
  simp

theorem regsKeptBut_rfWrite (s : State) (i : Fin 32) (v : Word) : RegsKeptBut i s (s.rfWrite i v) :=
  fun j other => by simp [other.symm]

/-- Settles O45: a register write is `rf_write`, and a write of all of them replaces the file. -/
theorem hostSetRegisterRule : Obligations.HostSetRegisterRule :=
  ⟨fun i v s => ⟨s.rfWrite i v, rfl, rfRead_rfWrite_same s i v, regsKeptBut_rfWrite s i v, rfl, rfl,
      rfl, rfl, fun _ => rfl, rfl⟩,
    fun vs s => ⟨{ s with x := vs }, rfl, fun _ => rfl, rfl, rfl, rfl, rfl, fun _ => rfl, rfl⟩⟩

/-- Settles O46: only `pc` and the status are written, and the status is `restarted`'s. -/
theorem hostSetPcRule : Obligations.HostSetPcRule := fun v s =>
  ⟨{ s.pcSet v with status := restarted s.status }, rfl, rfl, fun _ => rfl, rfl, rfl, rfl,
    restarted_of_isFaulted, restarted_of_not_isFaulted⟩

end Sys2Proof.Machine
end
